-- ==== Sys2Proof/Word.lean ====
section
/-!
DEFINITION. The word types of the block (spec/00_scope.md R8, R9; spec/30_encoding.md R100): a byte is 8 bits, a
word 16 bits, a command or event word 32 bits. All are unsigned; bit 0 is the least significant bit.
-/

namespace Sys2Proof

/-- One character or bus byte (R8, R11). -/
abbrev Byte := BitVec 8

/-- A tuner register, an RDS block or the value of a response (R8). -/
abbrev Word := BitVec 16

/-- One host command or input event (R100). -/
abbrev CmdWord := BitVec 32

end Sys2Proof
end

