-- ==== Sys2Proof/Syntax.lean ====
section
/-!
DEFINITION. The commands and input events of spec/30_encoding.md R106: one constructor per row of
spec/opcode_table.json, in the table's order, with the row's operand fields as raw bits. An operand is range-checked
by its operation, not by its type (R103, R107): a command with an operand out of range is a command.
-/

namespace Sys2Proof

inductive Instr where
  /-- `SYS_NOP` (R266) -/
  | sysNop
  /-- `SYS_RESET` (R267) -/
  | sysReset
  /-- `BR_READ count` (R131) -/
  | brRead (count : BitVec 8)
  /-- `BR_WRITE ub` (R132) -/
  | brWrite (ub : BitVec 8)
  /-- `BR_SETIMG addr, word` (R133) -/
  | brSetimg (addr : BitVec 8) (word : Word)
  /-- `BR_GETRES addr` (R134) -/
  | brGetres (addr : BitVec 8)
  /-- `BR_GETIMG addr` (R135) -/
  | brGetimg (addr : BitVec 8)
  /-- `RDS_LOADBLK blk, word` (R160) -/
  | rdsLoadblk (blk : BitVec 8) (word : Word)
  /-- `RDS_PROCESS` (R161) -/
  | rdsProcess
  /-- `RDS_SETTARGET tq` (R162) -/
  | rdsSettarget (tq : BitVec 8)
  /-- `RDS_RENDER len, q` (R166) -/
  | rdsRender (len : BitVec 8) (q : BitVec 2)
  /-- `RDS_GETPS` (R167) -/
  | rdsGetps
  /-- `RDS_CLEAR` (R168) -/
  | rdsClear
  /-- `RDS_GETSLOT slot` (R169) -/
  | rdsGetslot (slot : BitVec 8)
  /-- `RDS_GETSTATE` (R170) -/
  | rdsGetstate
  /-- `ENC_TAKE enc, k` (R200) -/
  | encTake (enc : BitVec 8) (k : BitVec 2)
  /-- `ENC_STATE enc` (R201) -/
  | encState (enc : BitVec 8)
  /-- `EV_PINA enc` (R202) -/
  | evPina (enc : BitVec 8)
  /-- `EV_PINB enc` (R203) -/
  | evPinb (enc : BitVec 8)
  /-- `EV_PUSH enc` (R204) -/
  | evPush (enc : BitVec 8)
  /-- `EV_GLITCH_EXPIRE` (R205) -/
  | evGlitchExpire
  /-- `FR_TAKEREADY` (R232) -/
  | frTakeready
  /-- `FR_GETLINE line` (R233) -/
  | frGetline (line : BitVec 8)
  /-- `FR_CLEAR` (R234) -/
  | frClear
  /-- `FR_STATE` (R235) -/
  | frState
  /-- `EV_RXBYTE b` (R231) -/
  | evRxbyte (b : Byte)
  /-- `EV_QUIET_EXPIRE` (R236) -/
  | evQuietExpire
deriving DecidableEq, Repr

/-- The class of R102: true for an input event, false for a host command. -/
def Instr.isEvent : Instr → Bool
  | .sysNop => false
  | .sysReset => false
  | .brRead _ => false
  | .brWrite _ => false
  | .brSetimg _ _ => false
  | .brGetres _ => false
  | .brGetimg _ => false
  | .rdsLoadblk _ _ => false
  | .rdsProcess => false
  | .rdsSettarget _ => false
  | .rdsRender _ _ => false
  | .rdsGetps => false
  | .rdsClear => false
  | .rdsGetslot _ => false
  | .rdsGetstate => false
  | .encTake _ _ => false
  | .encState _ => false
  | .evPina _ => true
  | .evPinb _ => true
  | .evPush _ => true
  | .evGlitchExpire => true
  | .frTakeready => false
  | .frGetline _ => false
  | .frClear => false
  | .frState => false
  | .evRxbyte _ => true
  | .evQuietExpire => true

/-- The mnemonic of the constructor's row (R106). -/
def Instr.mnemonic : Instr → String
  | .sysNop => "SYS_NOP"
  | .sysReset => "SYS_RESET"
  | .brRead _ => "BR_READ"
  | .brWrite _ => "BR_WRITE"
  | .brSetimg _ _ => "BR_SETIMG"
  | .brGetres _ => "BR_GETRES"
  | .brGetimg _ => "BR_GETIMG"
  | .rdsLoadblk _ _ => "RDS_LOADBLK"
  | .rdsProcess => "RDS_PROCESS"
  | .rdsSettarget _ => "RDS_SETTARGET"
  | .rdsRender _ _ => "RDS_RENDER"
  | .rdsGetps => "RDS_GETPS"
  | .rdsClear => "RDS_CLEAR"
  | .rdsGetslot _ => "RDS_GETSLOT"
  | .rdsGetstate => "RDS_GETSTATE"
  | .encTake _ _ => "ENC_TAKE"
  | .encState _ => "ENC_STATE"
  | .evPina _ => "EV_PINA"
  | .evPinb _ => "EV_PINB"
  | .evPush _ => "EV_PUSH"
  | .evGlitchExpire => "EV_GLITCH_EXPIRE"
  | .frTakeready => "FR_TAKEREADY"
  | .frGetline _ => "FR_GETLINE"
  | .frClear => "FR_CLEAR"
  | .frState => "FR_STATE"
  | .evRxbyte _ => "EV_RXBYTE"
  | .evQuietExpire => "EV_QUIET_EXPIRE"

end Sys2Proof
end

