-- ==== Sys2Proof/WellFormed.lean ====
section
/-!
DEFINITION. Which instructions a hardware source can issue (spec/30_encoding.md R105, R109). Every command is well
formed whatever its operands: an operand out of its legal range gives the response `RANGE_ERROR` (R107), a defined
outcome. An event is well formed when the dispatcher can produce it: its encoder number, where it has one, is 0 or 1.
-/

namespace Sys2Proof

/-- The operands are values that the instruction's source can issue (R109). -/
def Instr.wellFormed : Instr → Bool
  | .sysNop => true
  | .sysReset => true
  | .brRead _ => true
  | .brWrite _ => true
  | .brSetimg _ _ => true
  | .brGetres _ => true
  | .brGetimg _ => true
  | .rdsLoadblk _ _ => true
  | .rdsProcess => true
  | .rdsSettarget _ => true
  | .rdsRender _ _ => true
  | .rdsGetps => true
  | .rdsClear => true
  | .rdsGetslot _ => true
  | .rdsGetstate => true
  | .encTake _ _ => true
  | .encState _ => true
  | .evPina enc => decide (enc.toNat ≤ 1)
  | .evPinb enc => decide (enc.toNat ≤ 1)
  | .evPush enc => decide (enc.toNat ≤ 1)
  | .evGlitchExpire => true
  | .frTakeready => true
  | .frGetline _ => true
  | .frClear => true
  | .frState => true
  | .evRxbyte _ => true
  | .evQuietExpire => true

end Sys2Proof
end

