-- ==== Sys2Proof/Decode.lean ====
section
/-!
DEFINITION. Decoding and encoding of the 32-bit command and event words (spec/30_encoding.md R100 to R108), and the
opcode map of R106 as data. Decoding is total: a word that selects no row decodes to `none`.
-/

namespace Sys2Proof

/-- `UNIT` and `OP` together, bits [31:24] of a word (R100): no row leaves one of them free (R105). -/
def opcodeOf (w : CmdWord) : BitVec 8 := w.extractLsb' 24 8

/-- `ARG`, bits [23:16] of a word (R100). -/
def argOf (w : CmdWord) : BitVec 8 := w.extractLsb' 16 8

/-- `DATA`, bits [15:0] of a word (R100). -/
def dataOf (w : CmdWord) : Word := w.extractLsb' 0 16

/-- The class bit `OP[3]`, bit 27 of a word (R102). -/
def classBit (w : CmdWord) : Bool := w.getLsbD 27

/-- The row's operands are read only when its reserved-zero bits are 0 (R103). -/
def whenZero (reserved : Bool) (i : Instr) : Option Instr := if reserved then some i else none

/-- The one row a word selects, if any (R103, R105, R106, R108). -/
def decode (w : CmdWord) : Option Instr :=
  let arg := argOf w
  let data := dataOf w
  match opcodeOf w with
  | 0x00#8 => whenZero (arg == 0 && data == 0) .sysNop
  | 0x01#8 => whenZero (arg == 0 && data == 0) .sysReset
  | 0x10#8 => whenZero (data == 0) (.brRead arg)
  | 0x11#8 => whenZero (data == 0) (.brWrite arg)
  | 0x12#8 => some (.brSetimg arg data)
  | 0x13#8 => whenZero (data == 0) (.brGetres arg)
  | 0x14#8 => whenZero (data == 0) (.brGetimg arg)
  | 0x20#8 => some (.rdsLoadblk arg data)
  | 0x21#8 => whenZero (arg == 0 && data == 0) .rdsProcess
  | 0x22#8 => whenZero (data == 0) (.rdsSettarget arg)
  | 0x23#8 => whenZero (data.extractLsb' 2 14 == 0) (.rdsRender arg (data.extractLsb' 0 2))
  | 0x24#8 => whenZero (arg == 0 && data == 0) .rdsGetps
  | 0x25#8 => whenZero (arg == 0 && data == 0) .rdsClear
  | 0x26#8 => whenZero (data == 0) (.rdsGetslot arg)
  | 0x27#8 => whenZero (arg == 0 && data == 0) .rdsGetstate
  | 0x30#8 => whenZero (data.extractLsb' 2 14 == 0) (.encTake arg (data.extractLsb' 0 2))
  | 0x31#8 => whenZero (data == 0) (.encState arg)
  | 0x38#8 => whenZero (data == 0) (.evPina arg)
  | 0x39#8 => whenZero (data == 0) (.evPinb arg)
  | 0x3A#8 => whenZero (data == 0) (.evPush arg)
  | 0x3B#8 => whenZero (arg == 0 && data == 0) .evGlitchExpire
  | 0x40#8 => whenZero (arg == 0 && data == 0) .frTakeready
  | 0x41#8 => whenZero (data == 0) (.frGetline arg)
  | 0x42#8 => whenZero (arg == 0 && data == 0) .frClear
  | 0x43#8 => whenZero (arg == 0 && data == 0) .frState
  | 0x48#8 => whenZero (arg == 0 && data.extractLsb' 8 8 == 0) (.evRxbyte (data.extractLsb' 0 8))
  | 0x49#8 => whenZero (arg == 0 && data == 0) .evQuietExpire
  | _ => none

/-- A word on the host port: the command it selects; an event-class word selects none there (R102, R105). -/
def decodeCommand (w : CmdWord) : Option Instr := (decode w).filter fun i => !i.isEvent

/-- A word on the event channel: the event it selects; a command-class word selects none there (R105). -/
def decodeEvent (w : CmdWord) : Option Instr := (decode w).filter fun i => i.isEvent

/-- The word with the given fields (R100). -/
def pack (opcode : BitVec 8) (arg : BitVec 8) (data : Word) : CmdWord := opcode ++ arg ++ data

/-- The word of an instruction (R106, R110). -/
def encode : Instr → CmdWord
  | .sysNop => pack 0x00 0 0
  | .sysReset => pack 0x01 0 0
  | .brRead count => pack 0x10 count 0
  | .brWrite ub => pack 0x11 ub 0
  | .brSetimg addr word => pack 0x12 addr word
  | .brGetres addr => pack 0x13 addr 0
  | .brGetimg addr => pack 0x14 addr 0
  | .rdsLoadblk blk word => pack 0x20 blk word
  | .rdsProcess => pack 0x21 0 0
  | .rdsSettarget tq => pack 0x22 tq 0
  | .rdsRender len q => pack 0x23 len (0#14 ++ q)
  | .rdsGetps => pack 0x24 0 0
  | .rdsClear => pack 0x25 0 0
  | .rdsGetslot slot => pack 0x26 slot 0
  | .rdsGetstate => pack 0x27 0 0
  | .encTake enc k => pack 0x30 enc (0#14 ++ k)
  | .encState enc => pack 0x31 enc 0
  | .evPina enc => pack 0x38 enc 0
  | .evPinb enc => pack 0x39 enc 0
  | .evPush enc => pack 0x3A enc 0
  | .evGlitchExpire => pack 0x3B 0 0
  | .frTakeready => pack 0x40 0 0
  | .frGetline line => pack 0x41 line 0
  | .frClear => pack 0x42 0 0
  | .frState => pack 0x43 0 0
  | .evRxbyte b => pack 0x48 0 (0#8 ++ b)
  | .evQuietExpire => pack 0x49 0 0

/-- One row of the opcode map: a word selects it when `(word & mask) = match` (R103, R106). -/
structure OpcodeRow where
  mnemonic : String
  isEvent : Bool
  bits : CmdWord
  mask : CmdWord
deriving DecidableEq, Repr

/-- The row is selected by a word (R103). -/
def OpcodeRow.selects (r : OpcodeRow) (w : CmdWord) : Bool := w &&& r.mask == r.bits

/-- The rows of SYS, BR and RDS in the opcode map (R106). -/
def opcodeMapLow : List OpcodeRow :=
  [ ⟨"SYS_NOP", false, 0x00000000, 0xFFFFFFFF⟩,
    ⟨"SYS_RESET", false, 0x01000000, 0xFFFFFFFF⟩,
    ⟨"BR_READ", false, 0x10000000, 0xFF00FFFF⟩,
    ⟨"BR_WRITE", false, 0x11000000, 0xFF00FFFF⟩,
    ⟨"BR_SETIMG", false, 0x12000000, 0xFF000000⟩,
    ⟨"BR_GETRES", false, 0x13000000, 0xFF00FFFF⟩,
    ⟨"BR_GETIMG", false, 0x14000000, 0xFF00FFFF⟩,
    ⟨"RDS_LOADBLK", false, 0x20000000, 0xFF000000⟩,
    ⟨"RDS_PROCESS", false, 0x21000000, 0xFFFFFFFF⟩,
    ⟨"RDS_SETTARGET", false, 0x22000000, 0xFF00FFFF⟩,
    ⟨"RDS_RENDER", false, 0x23000000, 0xFF00FFFC⟩,
    ⟨"RDS_GETPS", false, 0x24000000, 0xFFFFFFFF⟩,
    ⟨"RDS_CLEAR", false, 0x25000000, 0xFFFFFFFF⟩,
    ⟨"RDS_GETSLOT", false, 0x26000000, 0xFF00FFFF⟩,
    ⟨"RDS_GETSTATE", false, 0x27000000, 0xFFFFFFFF⟩ ]

/-- The rows of ENC and FR in the opcode map (R106). -/
def opcodeMapHigh : List OpcodeRow :=
  [ ⟨"ENC_TAKE", false, 0x30000000, 0xFF00FFFC⟩,
    ⟨"ENC_STATE", false, 0x31000000, 0xFF00FFFF⟩,
    ⟨"EV_PINA", true, 0x38000000, 0xFF00FFFF⟩,
    ⟨"EV_PINB", true, 0x39000000, 0xFF00FFFF⟩,
    ⟨"EV_PUSH", true, 0x3A000000, 0xFF00FFFF⟩,
    ⟨"EV_GLITCH_EXPIRE", true, 0x3B000000, 0xFFFFFFFF⟩,
    ⟨"FR_TAKEREADY", false, 0x40000000, 0xFFFFFFFF⟩,
    ⟨"FR_GETLINE", false, 0x41000000, 0xFF00FFFF⟩,
    ⟨"FR_CLEAR", false, 0x42000000, 0xFFFFFFFF⟩,
    ⟨"FR_STATE", false, 0x43000000, 0xFFFFFFFF⟩,
    ⟨"EV_RXBYTE", true, 0x48000000, 0xFFFFFF00⟩,
    ⟨"EV_QUIET_EXPIRE", true, 0x49000000, 0xFFFFFFFF⟩ ]

/-- The opcode map of R106, 27 rows. -/
def opcodeMap : List OpcodeRow := opcodeMapLow ++ opcodeMapHigh

/-- The instruction the decoder reads from a table word of `nbits` bits (every row of the table has 32). -/
def decodeTableWord (nbits w : Nat) : Option Instr := decode (BitVec.ofNat 32 (w % 2 ^ nbits))

end Sys2Proof
end

