-- ==== Sys2Proof/Config.lean ====
section
/-!
DEFINITION. The implementation parameters of spec/00_scope.md R6. A value the spec fixes is an abbreviation; a
parameter it leaves OPEN is an opaque constant, so that no proof can rest on a value of it (log 11).
-/

namespace Sys2Proof.Config

/-- `NREG`: registers in the tuner register file (R6). -/
abbrev nReg : Nat := 16

/-- `WR_START`: first register of every bus write (R6, R72). -/
abbrev wrStart : Nat := 0x02

/-- `RD_START`: first register of every bus read (R6, R72). -/
abbrev rdStart : Nat := 0x0A

/-- `PS_LEN`: characters in the PS buffer (R6). -/
abbrev psLen : Nat := 8

/-- `RT_SLOTS`: RT slots (R6). -/
abbrev rtSlots : Nat := 16

/-- `RT_SLOT_CHARS`: characters per RT slot (R6). -/
abbrev rtSlotChars : Nat := 4

/-- `TARGET_RESET`: reset value of the configured target quality (R6, R40). -/
abbrev targetReset : BitVec 2 := 3

/-- `NUM_ENC`: encoders in the block (R6). -/
abbrev numEnc : Nat := 2

/-- `FR_LINES`: lines in the reply line buffer (R6). -/
abbrev frLines : Nat := 10

/-- `FR_COLS`: the column limit of a line (R6). -/
abbrev frCols : Nat := 50

/-- One less than `T_GLITCH`, with no value given (R6 OPEN, U3). -/
opaque tGlitchLessOne : Nat

/-- `T_GLITCH`: the glitch-timer window in microseconds, any value above 0 (R6, R7). -/
def tGlitch : Nat := tGlitchLessOne + 1

/-- One less than `T_QUIET`, with no value given (R6 OPEN, U3). -/
opaque tQuietLessOne : Nat

/-- `T_QUIET`: the quiet-period window in microseconds, any value above 0 (R6, R7). -/
def tQuiet : Nat := tQuietLessOne + 1

/-- `PS_SENTINEL`: the value Block C of a PS group is expected to carry, not in the spec (R6 OPEN, U4). -/
opaque psSentinel : Word

/-- `BUS_ADDR`: the two-wire bus address of the tuner, not in the spec (R6 OPEN, U4). -/
opaque busAddr : Nat

/-- Which of two timers due at one deadline fires first: true for the quiet timer. The spec draws it afresh at each tie
(R263, U9); a deadline at which two timers tie never comes again in a run, so the deadline tells the ties apart
(log 7). -/
opaque quietFirst : Nat → Bool

/-- NUL (R11). -/
abbrev chNul : Byte := 0x00

/-- LF, the newline (R11). -/
abbrev chLf : Byte := 0x0A

/-- CR (R11). -/
abbrev chCr : Byte := 0x0D

/-- Space (R11). -/
abbrev chSpace : Byte := 0x20

end Sys2Proof.Config
end

