-- ==== Sys2Proof/Machine/State.lean ====
section
/-!
DEFINITION. The state of the machine (spec/10_state.md), one record per unit (spec/00_scope.md R2), the host port, and
what lies outside the block and drives it: the environment's inputs, its time, and the responses emitted. Everything is
plain data. `State.reset` is the state of spec/70_reset_and_hazards.md R310.
-/

namespace Sys2Proof.Machine

/-- The register bridge's buffers. -/
structure Bridge where
  /-- `RES[0..15]`, the result buffer in canonical order (R31). -/
  res : Vector Word Config.nReg
  /-- `WIMG[0..15]`, the write image (R32). -/
  wimg : Vector Word Config.nReg
deriving DecidableEq, Repr

/-- The RDS group assembler. -/
structure Rds where
  /-- `GRP[0..3]`, blocks A, B, C, D of the group latch (R35). -/
  grp : Vector Word 4
  /-- `PS[0..7]`, the PS buffer (R36). -/
  ps : Vector Byte Config.psLen
  /-- `RTC[0..15][0..3]`, the RT slot contents (R37). -/
  rtc : Vector (Vector Byte Config.rtSlotChars) Config.rtSlots
  /-- `RTQ[0..15]`, the slots' qualities; 0 means no content (R38). -/
  rtq : Vector (BitVec 2) Config.rtSlots
  /-- `RTP`, the stored cycle parity (R39). -/
  rtp : Bool
  /-- `TARGET`, the configured target quality; 0 never arises in a run (R40). -/
  target : BitVec 2
deriving DecidableEq, Repr

/-- The quadrature state of one encoder (R45). -/
inductive EncState where
  | idle
  | aKeyed
  | bKeyed
deriving DecidableEq, Repr

/-- One encoder: its quadrature state and its three tokens. -/
structure Encoder where
  /-- `ENC_ST[e]` (R45). -/
  st : EncState
  /-- `FWD[e]`, the forward token (R46). -/
  fwd : Bool
  /-- `REV[e]`, the reverse token (R47). -/
  rev : Bool
  /-- `PUSH[e]`, the push token (R48). -/
  push : Bool
deriving DecidableEq, Repr

/-- The encoder debouncer. -/
structure EncUnit where
  /-- The encoders 0 and 1. -/
  unit : Vector Encoder Config.numEnc
  /-- `GT`, the glitch timer: `some d` is armed with deadline `d`, `none` disarmed (R50, log 6). -/
  gt : Option Nat
deriving DecidableEq, Repr

/-- The reply framer. The value ranges of R54 to R56 are in the types. -/
structure Framer where
  /-- `LINE[0..9][0..49]`, the reply line buffer (R53). -/
  line : Vector (Vector Byte Config.frCols) Config.frLines
  /-- `LEN[0..9]`, bytes stored in each line, 0 to 50 (R54). -/
  len : Vector (Fin 51) Config.frLines
  /-- `CUR_L`, the line of the write cursor, 10 when the buffer is full (R55). -/
  curL : Fin 11
  /-- `CUR_C`, the column of the write cursor (R56). -/
  curC : Fin 50
  /-- `READY`, the reply-ready flag (R57). -/
  ready : Bool
  /-- `QT`, the quiet timer, as `GT` (R58, log 6). -/
  qt : Option Nat
deriving DecidableEq, Repr

/-- A bus transfer that a bridge command posted and the bus has not answered (R14, R260, R261). -/
inductive Transfer where
  /-- `BusRead(nbytes)` of `BR_READ count` (R131), at the bus address `device`. -/
  | read (device : Nat) (count : Nat) (nbytes : Nat)
  /-- `BusWrite(data)` of `BR_WRITE` (R132), at the bus address `device`. -/
  | write (device : Nat) (data : List Byte)
deriving DecidableEq, Repr

/-- The status of a response (R104). -/
inductive Status where
  | ok
  | illegal
  | rangeError
  | busError
deriving DecidableEq, Repr

/-- A response record (R104). -/
structure Response where
  status : Status
  value : Word
  bytes : List Byte
deriving DecidableEq, Repr

/-- The pins of an encoder (R265). -/
inductive Pin where
  | a
  | b
  | push
deriving DecidableEq, Repr

/-- The block's two timers (R15). -/
inductive TimerId where
  | glitch
  | quiet
deriving DecidableEq, Repr

/-- What the outside world does to the block in one step (R260, R265, R310). -/
inductive Item where
  /-- The host presents a command word on the host port (R260). -/
  | host (w : CmdWord)
  /-- An edge on a pin of encoder `e`; only a rising one makes an event (R265). -/
  | edge (pin : Pin) (e : Fin 2) (rising : Bool)
  /-- The UART receiver delivers a byte (R265). -/
  | rx (b : Byte)
  /-- A word fed to the event channel as it is (R105, R109, log 8). -/
  | event (w : CmdWord)
  /-- The bus answers the `nr`-th transfer posted, a `BusRead`, with these bytes; the count it reports is their number
  (R14, R261, log 10). -/
  | busData (nr : Nat) (data : List Byte)
  /-- The bus answers the `nr`-th transfer posted, a `BusWrite`, with a byte count (R14, R261, log 10). -/
  | busCount (nr : Nat) (m : Nat)
  /-- The power-on reset input is asserted (R310, R311). -/
  | resetOn
  /-- The power-on reset input is released (R310, R311). -/
  | resetOff
deriving DecidableEq, Repr

/-- An input with its time stamp in microseconds (R262). -/
structure Input where
  time : Nat
  item : Item
deriving DecidableEq, Repr

/-- What lies outside the block. The block's reset does not touch it (R312). -/
structure Env where
  /-- The time stamp of the last step (R262). -/
  now : Nat
  /-- The inputs still to come, in step order (R83, R84, log 1). -/
  inbox : List Input
  /-- Commands waiting on the host port, in issue order (R329, log 4). -/
  waiting : List CmdWord
  /-- The responses emitted so far, oldest first (R85, R104, log 5). -/
  out : List Response
  /-- The power-on reset input is asserted (R311, log 9). -/
  rst : Bool
  /-- The number of bus transfers posted so far. It names the latest of them, so that an answer says which transfer it
  answers (R261, R311, log 10). -/
  posted : Nat
deriving DecidableEq, Repr

/-- The state of the machine: the block's units, its host port, and the environment. -/
structure State where
  /-- The register bridge. -/
  br : Bridge
  /-- The RDS group assembler. -/
  rds : Rds
  /-- The encoder debouncer. -/
  enc : EncUnit
  /-- The reply framer. -/
  fr : Framer
  /-- `HP_BUSY` (R33). -/
  hpBusy : Bool
  /-- The posted bus transfer, if one is outstanding (R260, R261). -/
  xfer : Option Transfer
  /-- The environment. -/
  env : Env
deriving DecidableEq, Repr

/-- Why the machine could stop with a fault: never. The block has no fault state (R268), so nothing raises one. -/
inductive Fault where
deriving DecidableEq, Repr

/-- Why a step is refused. -/
inductive Refusal where
  /-- Raised by `exec`'s arm of an instruction that has no meaning yet; none has. Safe: nothing is claimed of it. -/
  | notModelled (mnemonic : String)
  /-- Raised when a word on the event channel selects no event row (R105, R109, U5). Safe: the spec refuses it. -/
  | badEventWord (w : CmdWord)
  /-- Raised by `EV_PINA`, `EV_PINB` and `EV_PUSH` when `enc` is above 1 (R109, U5). Safe: the spec refuses it. -/
  | badEncoder (enc : BitVec 8)
deriving DecidableEq, Repr

/-- `RES` and `WIMG` after reset (R31, R32, R310). -/
def Bridge.reset : Bridge where
  res := Vector.replicate 16 0
  wimg := Vector.replicate 16 0

/-- The RDS unit after reset (R35 to R40, R310). -/
def Rds.reset : Rds where
  grp := Vector.replicate 4 0
  ps := Vector.replicate 8 0
  rtc := Vector.replicate 16 (Vector.replicate 4 0)
  rtq := Vector.replicate 16 0
  rtp := false
  target := Config.targetReset

/-- An encoder after reset (R45 to R48, R310). -/
def Encoder.reset : Encoder where
  st := .idle
  fwd := false
  rev := false
  push := false

/-- The debouncer after reset (R45 to R50, R310). -/
def EncUnit.reset : EncUnit where
  unit := Vector.replicate 2 Encoder.reset
  gt := none

/-- The framer after reset (R53 to R58, R310). -/
def Framer.reset : Framer where
  line := Vector.replicate 10 (Vector.replicate 50 0)
  len := Vector.replicate 10 0
  curL := 0
  curC := 0
  ready := false
  qt := none

/-- An environment that has done nothing yet (log 1, log 3, log 4, log 5, log 9, log 10). -/
def Env.reset : Env where
  now := 0
  inbox := []
  waiting := []
  out := []
  rst := false
  posted := 0

/-- The machine right after reset (R310). -/
def State.reset : State where
  br := .reset
  rds := .reset
  enc := .reset
  fr := .reset
  hpBusy := false
  xfer := none
  env := .reset

end Sys2Proof.Machine
end

