-- ==== Sys2Proof/Machine/Ops.lean ====
section
/-!
DEFINITION. The operations the meanings share: bounded access to a buffer, byte order (spec/20_memory.md R72 to R75),
wire order (spec/40_register_bridge.md R130, R131), responses and errors (spec/00_scope.md R12, R13), the bus
(R14), the timers (R15, R16) and the block's reset (spec/70_reset_and_hazards.md R310).

`State.raise` is how a command ends in an error: the block has no trap to enter and none to return from
(spec/60_exceptions.md R285, R286).
-/

namespace Sys2Proof.Machine

/-- Element `i` of a buffer, `d` past its end. -/
def rd {α : Type} {n : Nat} (d : α) (v : Vector α n) (i : Nat) : α := if h : i < n then v[i] else d

/-- A buffer with element `i` replaced; a write past its end writes nothing. -/
def wr {α : Type} {n : Nat} (v : Vector α n) (i : Nat) (x : α) : Vector α n := if h : i < n then v.set i x else v

/-- Bits 15:8 of a word (R73, R75). -/
def hiByte (w : Word) : Byte := w.extractLsb' 8 8

/-- Bits 7:0 of a word (R73, R75). -/
def loByte (w : Word) : Byte := w.extractLsb' 0 8

/-- `{hi, lo}` (R9). -/
def wordOfBytes (hi lo : Byte) : Word := hi ++ lo

/-- Words as the bytes of a bus write, big-endian (R73). -/
def bytesOfWords (ws : List Word) : List Byte := ws.flatMap fun w => [hiByte w, loByte w]

/-- Wire word `k` of the bytes of a bus read, big-endian (R74). -/
def wireWord (data : List Byte) (k : Nat) : Word := wordOfBytes (data.getD (2 * k) 0) (data.getD (2 * k + 1) 0)

/-- The tuner register that the `k`-th word of a bus read is (R72, R130). -/
def wireReg (k : Nat) : Nat := (Config.rdStart + k) % 16

/-- `W = (count - 10) mod 16`, the words a `BR_READ count` moves (R131). -/
def readWords (count : Nat) : Nat := (count + 16 - 10) % 16

/-- The result buffer after a read of `count` registers answered with `data`: the loop of R131. -/
def newRes (count : Nat) (data : List Byte) : Vector Word Config.nReg :=
  (List.range (readWords count)).foldl
    (fun r k => if count ≤ 9 ∧ 0x0A ≤ wireReg k then r else wr r (wireReg k) (wireWord data k))
    (Vector.replicate 16 0)

/-- The bytes of a write of `WIMG[0x02..ub]`, in ascending register order (R132). -/
def writeData (wimg : Vector Word Config.nReg) (ub : Nat) : List Byte :=
  bytesOfWords ((List.range (ub - 1)).map fun k => rd 0 wimg (Config.wrStart + k))

/-- `respond(status, value, bytes)`: emit the response record and free the host port (R12, R33, R85). -/
def State.respond (s : State) (status : Status) (value : Word) (bytes : List Byte) : State :=
  { s with hpBusy := false, env := { s.env with out := s.env.out ++ [⟨status, value, bytes⟩] } }

/-- `raise E` in the state the step began in: no write of the step survives, the response is `(E, 0, [])` (R13). -/
def State.raise (s : State) (e : Status) : State := s.respond e 0 []

/-- Post a bus transfer: the command stays outstanding and the port busy until the bus answers (R14, R260). It is the
next transfer by number (log 10). -/
def State.post (s : State) (t : Transfer) : State :=
  { s with hpBusy := true, xfer := some t, env := { s.env with posted := s.env.posted + 1 } }

/-- The outstanding transfer, when an answer to the `nr`-th transfer posted is the answer to it. The answer to a
transfer that was abandoned or answered before is none: it is ignored, whatever is outstanding now (R261, R311). -/
def State.answering (s : State) (nr : Nat) : Option Transfer := if nr = s.env.posted then s.xfer else none

/-- `arm(T)` at time `now`: any armed instance is replaced by the new deadline (R15). -/
def armed (now duration : Nat) : Option Nat := some (now + duration)

/-- `RESET_STATE`: every element of the block at its reset value, timers disarmed, a posted transfer abandoned; the
environment is untouched (R267, R310, R311, R312). -/
def State.resetBlock (s : State) : State := { State.reset with env := s.env }

/-- The step is stamped `t`; stamps never decrease (R262, log 2). -/
def State.stamped (s : State) (t : Nat) : State := { s with env := { s.env with now := max s.env.now t } }

end Sys2Proof.Machine
end

