-- ==== Sys2Proof/Machine/Flags.lean ====
section
/-!
DEFINITION. Flags, codes and status words: the layouts of spec/10_state.md R63, the `ATTN` output (R60) and the codes
of states and statuses (R45, spec/30_encoding.md R104). In a layout the leftmost part is the most significant.
-/

namespace Sys2Proof.Machine

/-- The encoding of `ENC_ST[e]` (R45). -/
def EncState.code : EncState → BitVec 2
  | .idle => 0
  | .aKeyed => 1
  | .bKeyed => 2

/-- The 2-bit code of a status (R104, R280). -/
def Status.code : Status → BitVec 2
  | .ok => 0
  | .illegal => 1
  | .rangeError => 2
  | .busError => 3

/-- A flag as a response value (R200, R232). -/
def flagWord (b : Bool) : Word := (BitVec.ofBool b).setWidth 16

/-- The value of `RDS_GETSTATE`: `TARGET` [1:0], `RTP` [2] (R63, R170). -/
def rdsStateWord (r : Rds) : Word := (BitVec.ofBool r.rtp ++ r.target : BitVec 3).setWidth 16

/-- The value of `RDS_PROCESS`: route [1:0], complete [2], sentinelMismatch [3], length [7:4] (R63, R161). -/
def processWord (route : BitVec 2) (complete mismatch : Bool) (length : BitVec 4) : Word :=
  (length ++ BitVec.ofBool mismatch ++ BitVec.ofBool complete ++ route : BitVec 8).setWidth 16

/-- The value of `ENC_STATE e`: `ENC_ST` [1:0], `FWD` [2], `REV` [3], `PUSH` [4], `GT.armed` [5] (R63, R201). -/
def encStateWord (e : Encoder) (gtArmed : Bool) : Word :=
  (BitVec.ofBool gtArmed ++ BitVec.ofBool e.push ++ BitVec.ofBool e.rev ++ BitVec.ofBool e.fwd ++ e.st.code
    : BitVec 6).setWidth 16

/-- The value of `FR_STATE`: `CUR_L` [3:0], `CUR_C` [9:4], `QT.armed` [10], `READY` [11] (R63, R235). -/
def frStateWord (f : Framer) : Word :=
  (BitVec.ofBool f.ready ++ BitVec.ofBool f.qt.isSome ++ BitVec.ofNat 6 f.curC.val ++ BitVec.ofNat 4 f.curL.val
    : BitVec 12).setWidth 16

/-- One of the encoder's tokens is set. -/
def Encoder.pending (e : Encoder) : Bool := e.fwd || e.rev || e.push

/-- `ATTN`: `READY` or any token of either encoder (R60, R289). -/
def State.attn (s : State) : Bool := s.fr.ready || s.enc.unit[0].pending || s.enc.unit[1].pending

end Sys2Proof.Machine
end

