-- ==== Sys2Proof/Machine/Operands.lean ====
section
/-!
DEFINITION. Operand forms: the fields of an RDS Block B (spec/41_rds_assembler.md R159), the encoder number, and the
legal ranges of spec/30_encoding.md R107 (spec/60_exceptions.md R282).
-/

namespace Sys2Proof.Machine

/-- Group type code, `B[15:12]` (R159). -/
def blockGtype (b : Word) : BitVec 4 := b.extractLsb' 12 4

/-- Version, `B[11]`; no rule reads it (R159). -/
def blockVersion (b : Word) : Bool := b.getLsbD 11

/-- Traffic-program flag, `B[10]` (R159). -/
def blockTp (b : Word) : Bool := b.getLsbD 10

/-- Program type, `B[9:5]`; no rule reads it (R159). -/
def blockPty (b : Word) : BitVec 5 := b.extractLsb' 5 5

/-- Index/cycle field, `B[4:0]` (R159). -/
def blockIdx (b : Word) : BitVec 5 := b.extractLsb' 0 5

/-- RT slot index, the low 4 bits of the index field (R159, R164). -/
def idxSlot (idx : BitVec 5) : BitVec 4 := idx.extractLsb' 0 4

/-- Cycle parity, bit 4 of the index field (R159, R164). -/
def idxParity (idx : BitVec 5) : Bool := idx.getLsbD 4

/-- The encoder an `enc` operand names, if it is in range (R107). -/
def encIndex (enc : BitVec 8) : Option (Fin 2) := if h : enc.toNat < 2 then some ⟨enc.toNat, h⟩ else none

/-- Every operand is in its legal range (R107, R282). -/
def operandsLegal : Instr → Bool
  | .sysNop => true
  | .sysReset => true
  | .brRead count => decide (1 ≤ count.toNat ∧ count.toNat ≤ 16)
  | .brWrite ub => decide (0x02 ≤ ub.toNat ∧ ub.toNat ≤ 0x0F)
  | .brSetimg addr _ => decide (addr.toNat ≤ 0x0F)
  | .brGetres addr => decide (addr.toNat ≤ 0x0F)
  | .brGetimg addr => decide (addr.toNat ≤ 0x0F)
  | .rdsLoadblk blk _ => decide (blk.toNat ≤ 3)
  | .rdsProcess => true
  | .rdsSettarget tq => decide (1 ≤ tq.toNat ∧ tq.toNat ≤ 3)
  | .rdsRender len _ => decide (len.toNat ≤ 16)
  | .rdsGetps => true
  | .rdsClear => true
  | .rdsGetslot slot => decide (slot.toNat ≤ 15)
  | .rdsGetstate => true
  | .encTake enc k => decide (enc.toNat ≤ 1 ∧ k.toNat ≤ 2)
  | .encState enc => decide (enc.toNat ≤ 1)
  | .evPina enc => decide (enc.toNat ≤ 1)
  | .evPinb enc => decide (enc.toNat ≤ 1)
  | .evPush enc => decide (enc.toNat ≤ 1)
  | .evGlitchExpire => true
  | .frTakeready => true
  | .frGetline line => decide (line.toNat ≤ 9)
  | .frClear => true
  | .frState => true
  | .evRxbyte _ => true
  | .evQuietExpire => true

end Sys2Proof.Machine
end

