-- ==== Sys2Proof/Machine/Assembler.lean ====
section
/-! DEFINITION. The RDS group assembler (spec/41_rds_assembler.md). -/

namespace Sys2Proof.Machine

/-- `PS_ASSEMBLE`: Block D's two characters at `2 * (idx mod 4)`, high byte first (R75, R163). -/
def Rds.psAssemble (r : Rds) (idx : BitVec 5) (d : Word) : Rds :=
  let i := idx.toNat % 4
  { r with ps := wr (wr r.ps (2 * i) (hiByte d)) (2 * i + 1) (loByte d) }

/-- The Block C sentinel differs; a report only (R163, R287). -/
def sentinelMismatch (c : Word) : Bool := c != Config.psSentinel

/-- The four characters of an RT group, from Blocks C and D (R164). -/
def rtChars (c d : Word) : Vector Byte Config.rtSlotChars := #v[hiByte c, loByte c, hiByte d, loByte d]

/-- `VOTE(s, chars)` (R165). -/
def Rds.vote (r : Rds) (slot : Fin 16) (chars : Vector Byte Config.rtSlotChars) : Rds :=
  if r.rtq[slot] = 0 then { r with rtc := r.rtc.set slot chars, rtq := r.rtq.set slot 1 }
  else if r.rtc[slot] = chars then
    if r.rtq[slot] < r.target then { r with rtq := r.rtq.set slot (r.rtq[slot] + 1) } else r
  else { r with rtc := r.rtc.set slot chars, rtq := r.rtq.set slot 1 }

/-- Every slot below `n` has reached the target quality (R164). -/
def Rds.settledBelow (r : Rds) (n : Nat) : Bool := (List.range n).all fun i => decide (r.target ≤ rd 0 r.rtq i)

/-- A group of parity `p` flips the stored cycle parity (R164). -/
def Rds.flips (r : Rds) (idx : BitVec 5) : Bool := idxParity idx != r.rtp

/-- The group completes a message: a flip with every slot below its own settled (R164, C1). -/
def Rds.completes (r : Rds) (idx : BitVec 5) : Bool := r.flips idx && r.settledBelow (idxSlot idx).toNat

/-- `RT_ASSEMBLE`, its effect on the state: the parity is stored on a flip, then the characters are voted (R164). -/
def Rds.rtAssemble (r : Rds) (idx : BitVec 5) (c d : Word) : Rds :=
  Rds.vote { r with rtp := if r.flips idx then idxParity idx else r.rtp } (idxSlot idx).toFin (rtChars c d)

/-- `RDS_PROCESS`: the unit after the group in the latch, and the response value (R161, R163, R164). -/
def Rds.process (r : Rds) : Rds × Word :=
  let b := r.grp[1]
  let c := r.grp[2]
  let d := r.grp[3]
  let idx := blockIdx b
  if blockTp b then (r, processWord 0 false false 0)
  else if blockGtype b = 0 then (r.psAssemble idx d, processWord 2 false (sentinelMismatch c) 0)
  else if blockGtype b = 2 then
    (r.rtAssemble idx c d, processWord 3 (r.completes idx) false (if r.completes idx then idxSlot idx else 0))
  else (r, processWord 1 false false 0)

/-- Slot `i` of a rendered message: its characters, or 4 spaces when its quality is below `q` (R166). -/
def Rds.renderSlot (r : Rds) (q : BitVec 2) (i : Nat) : List Byte :=
  if q ≤ rd 0 r.rtq i then (rd (Vector.replicate 4 0) r.rtc i).toList else List.replicate 4 Config.chSpace

/-- `RDS_CLEAR`: the assembly cleared, `TARGET` and `GRP` kept (R168). -/
def Rds.clear (r : Rds) : Rds :=
  { r with
    ps := Vector.replicate 8 0
    rtc := Vector.replicate 16 (Vector.replicate 4 0)
    rtq := Vector.replicate 16 0
    rtp := false }

/-- `RDS_LOADBLK blk, word` (R160). -/
def execRdsLoadblk (blk : BitVec 8) (word : Word) (s : State) : Host.Outcome State Fault Refusal :=
  if 3 < blk.toNat then .next (s.raise .rangeError)
  else .next ({ s with rds := { s.rds with grp := wr s.rds.grp blk.toNat word } }.respond .ok 0 [])

/-- `RDS_PROCESS` (R161). -/
def execRdsProcess (s : State) : Host.Outcome State Fault Refusal :=
  .next ({ s with rds := s.rds.process.1 }.respond .ok s.rds.process.2 [])

/-- `RDS_SETTARGET tq` (R162). -/
def execRdsSettarget (tq : BitVec 8) (s : State) : Host.Outcome State Fault Refusal :=
  if tq.toNat < 1 ∨ 3 < tq.toNat then .next (s.raise .rangeError)
  else .next ({ s with rds := { s.rds with target := tq.setWidth 2 } }.respond .ok 0 [])

/-- `RDS_RENDER len, q` (R166). -/
def execRdsRender (len : BitVec 8) (q : BitVec 2) (s : State) : Host.Outcome State Fault Refusal :=
  if 16 < len.toNat then .next (s.raise .rangeError)
  else .next (s.respond .ok (len.setWidth 16) ((List.range len.toNat).flatMap (s.rds.renderSlot q)))

/-- `RDS_GETPS` (R167). -/
def execRdsGetps (s : State) : Host.Outcome State Fault Refusal := .next (s.respond .ok 0 s.rds.ps.toList)

/-- `RDS_CLEAR` (R168). -/
def execRdsClear (s : State) : Host.Outcome State Fault Refusal :=
  .next ({ s with rds := s.rds.clear }.respond .ok 0 [])

/-- `RDS_GETSLOT slot` (R169). -/
def execRdsGetslot (slot : BitVec 8) (s : State) : Host.Outcome State Fault Refusal :=
  if 15 < slot.toNat then .next (s.raise .rangeError)
  else .next (s.respond .ok ((rd 0 s.rds.rtq slot.toNat).setWidth 16)
    (rd (Vector.replicate 4 0) s.rds.rtc slot.toNat).toList)

/-- `RDS_GETSTATE` (R170). -/
def execRdsGetstate (s : State) : Host.Outcome State Fault Refusal := .next (s.respond .ok (rdsStateWord s.rds) [])

end Sys2Proof.Machine
end

