-- ==== Sys2Proof/Machine/Bridge.lean ====
section
/-!
DEFINITION. The register bridge (spec/40_register_bridge.md). `BR_READ` and `BR_WRITE` are given in their two steps
(spec/49_system.md R260): the meanings run up to the bus transfer and post it; `busData` and `busCount` are the
completion steps, which the bus agent's answer runs.
-/

namespace Sys2Proof.Machine

/-- The end of a read that moved the bytes `data`: `RES` replaced whole, response `(OK, W, [])` (R131). -/
def storeRead (count : Nat) (data : List Byte) (s : State) : State :=
  { s with br := { s.br with res := newRes count data } }.respond .ok (BitVec.ofNat 16 (readWords count)) []

/-- The bus answers the `nr`-th transfer with `data` (R131, R261, R283): it ends that transfer, a read, if it is the
outstanding one; a late answer is ignored (R311, log 10). -/
def busData (nr : Nat) (data : List Byte) (s : State) : State :=
  match s.answering nr with
  | some (.read _ count nbytes) =>
    if data.length = nbytes then storeRead count data { s with xfer := none }
    else { s with xfer := none }.raise .busError
  | _ => s

/-- The bus answers the `nr`-th transfer with the byte count `m` (R132, R261, R283): it ends that transfer, a write, if
it is the outstanding one; a late answer is ignored (R311, log 10). -/
def busCount (nr m : Nat) (s : State) : State :=
  match s.answering nr with
  | some (.write _ data) =>
    if m = data.length then { s with xfer := none }.respond .ok (BitVec.ofNat 16 (data.length / 2)) []
    else { s with xfer := none }.raise .busError
  | _ => s

/-- `BR_READ count` up to its bus transfer (R131). -/
def execBrRead (count : BitVec 8) (s : State) : Host.Outcome State Fault Refusal :=
  if count.toNat < 1 ∨ 16 < count.toNat then .next (s.raise .rangeError)
  else if readWords count.toNat = 0 then .next (storeRead count.toNat [] s)
  else .next (s.post (.read Config.busAddr count.toNat (2 * readWords count.toNat)))

/-- `BR_WRITE ub` up to its bus transfer (R132). -/
def execBrWrite (ub : BitVec 8) (s : State) : Host.Outcome State Fault Refusal :=
  if ub.toNat < 0x02 ∨ 0x0F < ub.toNat then .next (s.raise .rangeError)
  else .next (s.post (.write Config.busAddr (writeData s.br.wimg ub.toNat)))

/-- `BR_SETIMG addr, word` (R133). -/
def execBrSetimg (addr : BitVec 8) (word : Word) (s : State) : Host.Outcome State Fault Refusal :=
  if 0x0F < addr.toNat then .next (s.raise .rangeError)
  else .next ({ s with br := { s.br with wimg := wr s.br.wimg addr.toNat word } }.respond .ok 0 [])

/-- `BR_GETRES addr` (R134). -/
def execBrGetres (addr : BitVec 8) (s : State) : Host.Outcome State Fault Refusal :=
  if 0x0F < addr.toNat then .next (s.raise .rangeError)
  else .next (s.respond .ok (rd 0 s.br.res addr.toNat) [])

/-- `BR_GETIMG addr` (R135). -/
def execBrGetimg (addr : BitVec 8) (s : State) : Host.Outcome State Fault Refusal :=
  if 0x0F < addr.toNat then .next (s.raise .rangeError)
  else .next (s.respond .ok (rd 0 s.br.wimg addr.toNat) [])

end Sys2Proof.Machine
end

