-- ==== Sys2Proof/Machine/Debouncer.lean ====
section
/-! DEFINITION. The encoder debouncer (spec/42_encoder_debouncer.md). -/

namespace Sys2Proof.Machine

/-- Replace one encoder. -/
def EncUnit.put (u : EncUnit) (e : Fin 2) (x : Encoder) : EncUnit := { u with unit := u.unit.set e x }

/-- Pin A rises at time `now` (R202). -/
def EncUnit.pinA (u : EncUnit) (now : Nat) (e : Fin 2) : EncUnit :=
  match u.unit[e].st with
  | .idle => { u.put e { u.unit[e] with st := .aKeyed } with gt := armed now Config.tGlitch }
  | .aKeyed => u.put e { u.unit[e] with st := .idle }
  | .bKeyed => u.put e { u.unit[e] with st := .idle, rev := true }

/-- Pin B rises at time `now` (R203). -/
def EncUnit.pinB (u : EncUnit) (now : Nat) (e : Fin 2) : EncUnit :=
  match u.unit[e].st with
  | .idle => { u.put e { u.unit[e] with st := .bKeyed } with gt := armed now Config.tGlitch }
  | .aKeyed => u.put e { u.unit[e] with st := .idle, fwd := true }
  | .bKeyed => u.put e { u.unit[e] with st := .idle }

/-- The push pin rises (R204). -/
def EncUnit.pushed (u : EncUnit) (e : Fin 2) : EncUnit := u.put e { u.unit[e] with push := true }

/-- The glitch timer, disarmed by its firing (R16), returns both encoders to `Idle` (R205). -/
def EncUnit.expire (u : EncUnit) : EncUnit where
  unit := #v[{ u.unit[0] with st := .idle }, { u.unit[1] with st := .idle }]
  gt := none

/-- The token that selector `k` names: 0 forward, 1 reverse, 2 push (R200); 3 names none. -/
def Encoder.token (x : Encoder) (k : BitVec 2) : Bool :=
  if k = 0 then x.fwd else if k = 1 then x.rev else if k = 2 then x.push else false

/-- The encoder with the token that `k` names cleared, the others as they are (R49, R200). -/
def Encoder.taken (x : Encoder) (k : BitVec 2) : Encoder :=
  if k = 0 then { x with fwd := false } else if k = 1 then { x with rev := false }
  else if k = 2 then { x with push := false } else x

/-- `ENC_TAKE enc, k` (R200). -/
def execEncTake (enc : BitVec 8) (k : BitVec 2) (s : State) : Host.Outcome State Fault Refusal :=
  match encIndex enc with
  | none => .next (s.raise .rangeError)
  | some e =>
    if k = 3 then .next (s.raise .rangeError)
    else .next ({ s with enc := s.enc.put e (s.enc.unit[e].taken k) }.respond .ok (flagWord (s.enc.unit[e].token k)) [])

/-- `ENC_STATE enc` (R201). -/
def execEncState (enc : BitVec 8) (s : State) : Host.Outcome State Fault Refusal :=
  match encIndex enc with
  | none => .next (s.raise .rangeError)
  | some e => .next (s.respond .ok (encStateWord s.enc.unit[e] s.enc.gt.isSome) [])

/-- `EV_PINA enc` (R202); an encoder number above 1 is refused (R109). -/
def execEvPina (enc : BitVec 8) (s : State) : Host.Outcome State Fault Refusal :=
  match encIndex enc with
  | none => .refused (.badEncoder enc)
  | some e => .next { s with enc := s.enc.pinA s.env.now e }

/-- `EV_PINB enc` (R203); an encoder number above 1 is refused (R109). -/
def execEvPinb (enc : BitVec 8) (s : State) : Host.Outcome State Fault Refusal :=
  match encIndex enc with
  | none => .refused (.badEncoder enc)
  | some e => .next { s with enc := s.enc.pinB s.env.now e }

/-- `EV_PUSH enc` (R204); an encoder number above 1 is refused (R109). -/
def execEvPush (enc : BitVec 8) (s : State) : Host.Outcome State Fault Refusal :=
  match encIndex enc with
  | none => .refused (.badEncoder enc)
  | some e => .next { s with enc := s.enc.pushed e }

/-- `EV_GLITCH_EXPIRE` (R16, R205). -/
def execEvGlitchExpire (s : State) : Host.Outcome State Fault Refusal := .next { s with enc := s.enc.expire }

end Sys2Proof.Machine
end

