-- ==== Sys2Proof/Machine/Framer.lean ====
section
/-! DEFINITION. The reply framer (spec/43_reply_framer.md). -/

namespace Sys2Proof.Machine

/-- Store `b` at the cursor of a buffer that is not full (R231). -/
def Framer.store (f : Framer) (b : Byte) (h : f.curL.val < 10) : Framer :=
  { f with
    line := f.line.set f.curL.val (f.line[f.curL.val].set f.curC.val b)
    len := f.len.set f.curL.val ⟨f.curC.val + 1, by have := f.curC.isLt; omega⟩ }

/-- A received byte at time `now` (R230, R231): CR, NUL and any byte of a full buffer are dropped and change nothing;
any other byte is accepted: it is stored, it cancels the quiet timer, and it closes the line, arming the timer, when it
is LF or fills the line. -/
def Framer.rx (f : Framer) (now : Nat) (b : Byte) : Framer :=
  if b = Config.chCr ∨ b = Config.chNul then f
  else if hl : f.curL.val < 10 then
    let g := f.store b hl
    if hc : b = Config.chLf ∨ f.curC.val + 1 = 50 then
      { g with curL := ⟨f.curL.val + 1, by omega⟩, curC := 0, qt := armed now Config.tQuiet }
    else { g with curC := ⟨f.curC.val + 1, by have := f.curC.isLt; omega⟩, qt := none }
  else f

/-- `FR_CLEAR`: lines, lengths and cursor cleared, `READY` and `QT` kept (R234). -/
def Framer.clear (f : Framer) : Framer :=
  { f with
    line := Vector.replicate 10 (Vector.replicate 50 0)
    len := Vector.replicate 10 0
    curL := 0
    curC := 0 }

/-- The bytes stored in line `l` (R233). -/
def Framer.lineBytes (f : Framer) (l : Nat) : List Byte :=
  (rd (Vector.replicate 50 0) f.line l).toList.take (rd 0 f.len l).val

/-- `EV_RXBYTE b` (R231). -/
def execEvRxbyte (b : Byte) (s : State) : Host.Outcome State Fault Refusal :=
  .next { s with fr := s.fr.rx s.env.now b }

/-- `EV_QUIET_EXPIRE`: the quiet timer, disarmed by its firing (R16), sets `READY` (R236). -/
def execEvQuietExpire (s : State) : Host.Outcome State Fault Refusal :=
  .next { s with fr := { s.fr with ready := true, qt := none } }

/-- `FR_TAKEREADY` (R232). -/
def execFrTakeready (s : State) : Host.Outcome State Fault Refusal :=
  .next ({ s with fr := { s.fr with ready := false } }.respond .ok (flagWord s.fr.ready) [])

/-- `FR_GETLINE line` (R233). -/
def execFrGetline (line : BitVec 8) (s : State) : Host.Outcome State Fault Refusal :=
  if 9 < line.toNat then .next (s.raise .rangeError)
  else .next (s.respond .ok (BitVec.ofNat 16 (rd 0 s.fr.len line.toNat).val) (s.fr.lineBytes line.toNat))

/-- `FR_CLEAR` (R234). -/
def execFrClear (s : State) : Host.Outcome State Fault Refusal :=
  .next ({ s with fr := s.fr.clear }.respond .ok 0 [])

/-- `FR_STATE` (R235). -/
def execFrState (s : State) : Host.Outcome State Fault Refusal := .next (s.respond .ok (frStateWord s.fr) [])

end Sys2Proof.Machine
end

