-- ==== Sys2Proof/Machine/System.lean ====
section
/-! DEFINITION. The system commands (spec/49_system.md R266, R267). -/

namespace Sys2Proof.Machine

/-- `SYS_NOP` (R266). -/
def execSysNop (s : State) : Host.Outcome State Fault Refusal := .next (s.respond .ok 0 [])

/-- `SYS_RESET` (R267). -/
def execSysReset (s : State) : Host.Outcome State Fault Refusal := .next (s.resetBlock.respond .ok 0 [])

end Sys2Proof.Machine
end

