-- ==== Sys2Proof/Machine/Dispatch.lean ====
section
/-! DEFINITION. The meaning of every instruction: one arm per constructor of Instr, each a direct call. -/

namespace Sys2Proof.Machine

def exec (i : Instr) (s : State) : Host.Outcome State Fault Refusal :=
  match i with
  | .sysNop => Sys2Proof.Machine.execSysNop s
  | .sysReset => Sys2Proof.Machine.execSysReset s
  | .brRead count => Sys2Proof.Machine.execBrRead count s
  | .brWrite ub => Sys2Proof.Machine.execBrWrite ub s
  | .brSetimg addr word => Sys2Proof.Machine.execBrSetimg addr word s
  | .brGetres addr => Sys2Proof.Machine.execBrGetres addr s
  | .brGetimg addr => Sys2Proof.Machine.execBrGetimg addr s
  | .rdsLoadblk blk word => Sys2Proof.Machine.execRdsLoadblk blk word s
  | .rdsProcess => Sys2Proof.Machine.execRdsProcess s
  | .rdsSettarget tq => Sys2Proof.Machine.execRdsSettarget tq s
  | .rdsRender len q => Sys2Proof.Machine.execRdsRender len q s
  | .rdsGetps => Sys2Proof.Machine.execRdsGetps s
  | .rdsClear => Sys2Proof.Machine.execRdsClear s
  | .rdsGetslot slot => Sys2Proof.Machine.execRdsGetslot slot s
  | .rdsGetstate => Sys2Proof.Machine.execRdsGetstate s
  | .encTake enc k => Sys2Proof.Machine.execEncTake enc k s
  | .encState enc => Sys2Proof.Machine.execEncState enc s
  | .evPina enc => Sys2Proof.Machine.execEvPina enc s
  | .evPinb enc => Sys2Proof.Machine.execEvPinb enc s
  | .evPush enc => Sys2Proof.Machine.execEvPush enc s
  | .evGlitchExpire => Sys2Proof.Machine.execEvGlitchExpire s
  | .frTakeready => Sys2Proof.Machine.execFrTakeready s
  | .frGetline line => Sys2Proof.Machine.execFrGetline line s
  | .frClear => Sys2Proof.Machine.execFrClear s
  | .frState => Sys2Proof.Machine.execFrState s
  | .evRxbyte b => Sys2Proof.Machine.execEvRxbyte b s
  | .evQuietExpire => Sys2Proof.Machine.execEvQuietExpire s

end Sys2Proof.Machine
end

