-- ==== Sys2Proof/Machine/Agents.lean ====
section
/-!
DEFINITION. The agents and the step order (spec/49_system.md R260 to R265, spec/20_memory.md R83 to R85): which agent
takes the next step, at what time stamp, and what that step does. Data of the state decides it: the environment's
inputs stand in `env.inbox` in step order, and an armed timer fires at its deadline before every input stamped then or
later.
-/

namespace Sys2Proof.Machine

/-- What the next step is. -/
inductive Activity where
  /-- No timer is armed and nothing is to come. -/
  | idle
  /-- Timer `t` fires at its deadline `d` (R263). -/
  | fire (t : TimerId) (d : Nat)
  /-- The host port is free and takes the command that waits longest (R260, R329). -/
  | accept (w : CmdWord) (rest : List CmdWord)
  /-- The oldest input of the environment is taken (R83). -/
  | deliver (i : Input) (rest : List Input)
deriving DecidableEq, Repr

/-- The host port accepts a command: it is not busy and the block is not held in reset (R33, R260). -/
def State.portFree (s : State) : Bool := !s.hpBusy && !s.env.rst

/-- The step that comes next unless a timer fires first. A waiting command is accepted as soon as the port is free. -/
def State.pending (s : State) : Activity :=
  match s.portFree, s.env.waiting, s.env.inbox with
  | true, w :: rest, _ => .accept w rest
  | _, _, i :: rest => .deliver i rest
  | _, _, [] => .idle

/-- The time stamp of the pending step; none when there is none (R262, log 2). -/
def State.pendingStamp (s : State) : Option Nat :=
  match s.pending with
  | .deliver i _ => some (max s.env.now i.time)
  | .accept _ _ => some s.env.now
  | _ => none

/-- A deadline is reached before a step stamped `t`, or at it; with no step to come, time goes on until it is (R263). -/
def reached (t : Option Nat) (d : Nat) : Bool :=
  match t with
  | none => true
  | some t => decide (d ≤ t)

/-- The timer that fires before the pending step, if any: the earlier one, and either, by a draw, when both are due at
one deadline (R84, R263, U9, log 7). -/
def State.firing (s : State) : Option (TimerId × Nat) :=
  match s.enc.gt.filter (reached s.pendingStamp), s.fr.qt.filter (reached s.pendingStamp) with
  | none, none => none
  | some d, none => some (.glitch, d)
  | none, some d => some (.quiet, d)
  | some d, some d' =>
    if d < d' then some (.glitch, d)
    else if d' < d then some (.quiet, d')
    else if Config.quietFirst d then some (.quiet, d') else some (.glitch, d)

/-- The next step of the step order (R83, R263). -/
def State.activity (s : State) : Activity :=
  match s.firing with
  | some (t, d) => .fire t d
  | none => s.pending

/-- The event word a timer raises (R16, R106). -/
def TimerId.word : TimerId → CmdWord
  | .glitch => 0x3B000000
  | .quiet => 0x49000000

/-- The dispatcher: the event word of a pin edge; a falling edge makes none (R265). -/
def edgeWord (pin : Pin) (e : Fin 2) (rising : Bool) : Option CmdWord :=
  if rising then
    match pin with
    | .a => some (encode (.evPina (BitVec.ofNat 8 e.val)))
    | .b => some (encode (.evPinb (BitVec.ofNat 8 e.val)))
    | .push => some (encode (.evPush (BitVec.ofNat 8 e.val)))
  else none

/-- The dispatcher: the event word of a received byte (R265). -/
def rxWord (b : Byte) : CmdWord := encode (.evRxbyte b)

/-- A word on the host port is accepted: the port is busy from acceptance to response, and a word that selects no
command gets the response `ILLEGAL` (R33, R105, R260, R281). -/
def runCommand (w : CmdWord) (s : State) : Host.Outcome State Fault Refusal :=
  match decodeCommand w with
  | some i => exec i { s with hpBusy := true }
  | none => .next ({ s with hpBusy := true }.raise .illegal)

/-- A word on the event channel: the event it selects, or the refusal of R109 (R105). -/
def runEvent (w : CmdWord) (s : State) : Host.Outcome State Fault Refusal :=
  match decodeEvent w with
  | some i => exec i s
  | none => .refused (.badEventWord w)

/-- An event reaches the block; one that arrives during reset is lost (R311). DESIGN CHOICE (log 21): a word that R109
refuses (one that selects no event row, or has `enc` above 1) is lost too when it arrives during reset, with no
refusal; the spec does not say which of R109 and R311 goes first. -/
def arrive (w : CmdWord) (s : State) : Host.Outcome State Fault Refusal :=
  if s.env.rst then .next s else runEvent w s

/-- What one input does (R260, R261, R265, R311, R329). -/
def deliver (x : Item) (s : State) : Host.Outcome State Fault Refusal :=
  match x with
  | .host w =>
    if s.portFree then runCommand w s
    else .next { s with env := { s.env with waiting := s.env.waiting ++ [w] } }
  | .edge pin e rising =>
    match edgeWord pin e rising with
    | some w => arrive w s
    | none => .next s
  | .rx b => arrive (rxWord b) s
  | .event w => arrive w s
  | .busData nr data => .next (busData nr data s)
  | .busCount nr m => .next (busCount nr m s)
  | .resetOn => .next { s.resetBlock with env := { s.env with rst := true } }
  | .resetOff => .next { s with env := { s.env with rst := false } }

/-- One step of the step order. With nothing to do the state stands still (log 14). -/
def advance (s : State) : Host.Outcome State Fault Refusal :=
  match s.activity with
  | .idle => .next s
  | .fire t d => runEvent t.word (s.stamped d)
  | .accept w rest => runCommand w { s with env := { s.env with waiting := rest } }
  | .deliver i rest => deliver i.item ({ s with env := { s.env with inbox := rest } }.stamped i.time)

/-- A deadline moved past `now`, so that its timer does not fire first. -/
def notYet (now d : Nat) : Nat := if d ≤ now then now + 1 else d

/-- The state in which the very next step runs the word `w`: a command is placed on the free host port, an event at the
head of the inputs; no timer is due, no reset is asserted, nothing else goes first (log 20). -/
def State.withWord (s : State) (w : CmdWord) : State :=
  let env := { s.env with rst := false }
  let enc := { s.enc with gt := s.enc.gt.map (notYet s.env.now) }
  let fr := { s.fr with qt := s.fr.qt.map (notYet s.env.now) }
  if classBit w then
    { s with
      enc := enc
      fr := fr
      env := { env with
        inbox := ⟨s.env.now, .event w⟩ :: s.env.inbox
        waiting := if s.hpBusy then s.env.waiting else [] } }
  else
    { s with
      enc := enc
      fr := fr
      hpBusy := false
      xfer := none
      env := { env with waiting := w :: s.env.waiting } }

end Sys2Proof.Machine
end

