-- ==== Sys2Proof/Safety.lean ====
section
/-!
DEFINITION. The terms in which claims speak: what a step leaves alone, how a command ends, the end of a run
(spec/49_system.md R269), and the invariants of the machine (spec/43_reply_framer.md R237 and the value ranges and
writers of spec/10_state.md).
-/

namespace Sys2Proof.Machine

/-- The buffers and flags of the four units are as they were. -/
def SameUnits (s t : State) : Prop := t.br = s.br ∧ t.rds = s.rds ∧ t.enc = s.enc ∧ t.fr = s.fr

/-- The command ended with exactly one response; the port is free, no transfer was posted or ended, and nothing else of
the environment changed (R33, R85, R104). -/
def Answered (s t : State) (status : Status) (value : Word) (bytes : List Byte) : Prop :=
  t.hpBusy = false ∧ t.xfer = s.xfer ∧ t.env = { s.env with out := s.env.out ++ [⟨status, value, bytes⟩] }

/-- The command ended in an error: that response and no other change (R13, R280, R285). -/
def ErrorOnly (s t : State) (e : Status) : Prop := SameUnits s t ∧ Answered s t e 0 []

/-- The two steps emitted the same response record, if one of them emitted one. -/
def SameRecord (s t s' t' : State) : Prop :=
  ∀ r, t.env.out = s.env.out ++ [r] ↔ t'.env.out = s'.env.out ++ [r]

/-- The input is an input event or a command (R269): a word on the host port, a rising edge, a byte or a word on the
event channel. DEDUCED (log 22): a falling edge makes no event (R265), and a bus answer and a change of the reset line
are neither an event nor a command, so they may still be to come at the end of a run. -/
def Item.isEventOrCommand : Item → Bool
  | .host _ => true
  | .edge _ _ rising => rising
  | .rx _ => true
  | .event _ => true
  | .busData _ _ => false
  | .busCount _ _ => false
  | .resetOn => false
  | .resetOff => false

/-- The end of a run (R269): the port free, both timers disarmed, no input event or command to come (log 22). -/
def State.quiescent (s : State) : Prop :=
  s.hpBusy = false ∧ s.enc.gt = none ∧ s.fr.qt = none ∧ s.env.waiting = [] ∧
    ∀ i ∈ s.env.inbox, i.item.isEventOrCommand = false

/-- No armed timer has a deadline at or before `t`. -/
def State.nothingDueBy (s : State) (t : Nat) : Prop :=
  (∀ d, s.enc.gt = some d → t < d) ∧ (∀ d, s.fr.qt = some d → t < d)

/-- The bytes of a word of a bus transfer, high byte first (R73, R74), read from position `k` of the words. -/
def wordAt (data : List Byte) (k : Nat) : Option Word :=
  match data[2 * k]?, data[2 * k + 1]? with
  | some hi, some lo => some (hi ++ lo)
  | _, _ => none

/-- The invariants of the reply framer that R237 lists (its ranges of `CUR_L` and `CUR_C` are in their types), with
what makes them inductive: the open line holds no LF. -/
structure FramerInv (f : Framer) : Prop where
  /-- `CUR_C = 0` when `CUR_L = 10`. -/
  fullColumn : f.curL.val = 10 → f.curC.val = 0
  /-- `LEN[l] ≥ 1` for every closed line. -/
  closedNonempty : ∀ l : Fin 10, l.val < f.curL.val → 1 ≤ f.len[l].val
  /-- `LEN[CUR_L] = CUR_C` when `CUR_L < 10`. -/
  currentLength : ∀ l : Fin 10, l.val = f.curL.val → f.len[l].val = f.curC.val
  /-- `LEN[l] = 0` for every line not yet started. -/
  laterEmpty : ∀ l : Fin 10, f.curL.val < l.val → f.len[l].val = 0
  /-- No stored byte is CR or NUL. -/
  noCrNul : ∀ (l : Fin 10) (c : Fin 50), c.val < f.len[l].val → f.line[l][c] ≠ 0x0D ∧ f.line[l][c] ≠ 0x00
  /-- A closed line ends with LF or is full. -/
  closedEnd : ∀ (l : Fin 10) (c : Fin 50), l.val < f.curL.val → c.val + 1 = f.len[l].val →
    f.line[l][c] = 0x0A ∨ f.len[l].val = 50
  /-- No byte of a line but its last is LF. -/
  lfOnlyLast : ∀ (l : Fin 10) (c : Fin 50), c.val + 1 < f.len[l].val → f.line[l][c] ≠ 0x0A
  /-- The open line holds no LF. -/
  openNoLf : ∀ (l : Fin 10) (c : Fin 50), l.val = f.curL.val → c.val < f.len[l].val → f.line[l][c] ≠ 0x0A
  /-- `QT` is armed only if the last accepted byte closed a line, which leaves the column at 0. -/
  timerAtLineStart : f.qt.isSome = true → f.curC.val = 0

/-- `TARGET` is never 0 (R40), and a slot of quality 0 holds no characters (R38, R169). -/
structure RdsInv (r : Rds) : Prop where
  targetLegal : r.target ≠ 0
  emptySlots : ∀ (i : Fin 16) (j : Fin 4), r.rtq[i] = 0 → r.rtc[i][j] = 0

/-- A posted transfer is one that a legal `BR_READ` or `BR_WRITE` posts (R131, R132, R78). -/
def Transfer.legal : Transfer → Prop
  | .read _ count nbytes => 1 ≤ count ∧ count ≤ 16 ∧ nbytes = 2 * readWords count ∧ 0 < nbytes
  | .write _ data => ∃ n, 1 ≤ n ∧ n ≤ 14 ∧ data.length = 2 * n

/-- The invariants of the whole machine between steps. -/
structure State.Inv (s : State) : Prop where
  /-- R237. -/
  framer : FramerInv s.fr
  /-- R38, R40. -/
  rds : RdsInv s.rds
  /-- `HP_BUSY` is set exactly while a bus transfer is outstanding (R33, R260). -/
  busyIffTransfer : s.hpBusy = s.xfer.isSome
  /-- An outstanding transfer is a legal one (R78, R131, R132). -/
  transferLegal : ∀ t, s.xfer = some t → t.legal
  /-- A keyed encoder has the glitch timer running (R202, R203, R207). -/
  keyedArmed : ∀ e : Fin 2, s.enc.unit[e].st ≠ .idle → s.enc.gt.isSome = true
  /-- No armed timer's deadline is past (R263). -/
  deadlines : (∀ d, s.enc.gt = some d → s.env.now ≤ d) ∧ (∀ d, s.fr.qt = some d → s.env.now ≤ d)
  /-- While the power-on reset is asserted nothing runs in the block (R311; the reset line is the model's, log 9). -/
  heldInReset : s.env.rst = true → s.hpBusy = false ∧ s.enc.gt = none ∧ s.fr.qt = none
  /-- No read keeps register 0x09 (R136, R321). -/
  register9 : s.br.res[9] = 0

end Sys2Proof.Machine
end

