-- ==== Sys2Proof/Certificates/Slice0/Obligations.lean ====
section
/-!
DEFINITION. The statements for the provers. Each is about the machine for every state and operand that meets its
hypotheses; each docstring names the rule of spec/ it formalises, and says so where it rests on a choice of the model.
-/

open Sys2Proof Sys2Proof.Machine

/-! ## Encoding -/

/-- R106, R107, R110: decoding the word of any instruction, with any operand bits, gives the instruction back. -/
def Obligations.DecodeOfEncodeIsIdentity : Prop := ∀ i : Instr, decode (encode i) = some i

/-- R103, R107: a word has one meaning: the instruction a word decodes to is encoded as that word, so no bit of it is
dropped and no reserved-zero bit is ignored. -/
def Obligations.EncodeOfDecodeIsIdentity : Prop := ∀ (w : CmdWord) (i : Instr), decode w = some i → encode i = w

/-- R103, R105, R106, R108: the decoder is the opcode map: a word that a row selects by mask and match decodes to an
instruction of that row, and a word that no row selects decodes to nothing. -/
def Obligations.DecoderFollowsOpcodeMap : Prop := ∀ w : CmdWord,
  (∀ r ∈ opcodeMap, w &&& r.mask = r.bits →
    ∃ i, decode w = some i ∧ i.mnemonic = r.mnemonic ∧ i.isEvent = r.isEvent) ∧
  ((∀ r ∈ opcodeMap, w &&& r.mask ≠ r.bits) → decode w = none)

/-- R105: at most one row of the opcode map matches any word. -/
def Obligations.AtMostOneRowMatchesAWord : Prop := ∀ w : CmdWord, ∀ r ∈ opcodeMap, ∀ r' ∈ opcodeMap,
  w &&& r.mask = r.bits → w &&& r'.mask = r'.bits → r = r'

/-- Words written out from R106 decode to the instructions they stand for. -/
def Obligations.SampleWordsDecode : Prop :=
  decode 0x01000000 = some .sysReset ∧ decode 0x10030000 = some (.brRead 3) ∧
  decode 0x12024001 = some (.brSetimg 2 0x4001) ∧ decode 0x20035269 = some (.rdsLoadblk 3 0x5269) ∧
  decode 0x23020003 = some (.rdsRender 2 3) ∧ decode 0x30010002 = some (.encTake 1 2) ∧
  decode 0x39010000 = some (.evPinb 1) ∧ decode 0x48000041 = some (.evRxbyte 0x41)

/-! ## The step -/

/-- R260, R83: when a command waits on the free host port and no timer is due, the step runs the command its word
decodes to, with the port busy and the word taken off the port. That a waiting command goes before the next input is
the model's (log 4). -/
def Obligations.StepRunsWaitingCommand : Prop := ∀ (s : State) (w : CmdWord) (rest : List CmdWord) (i : Instr),
  s.hpBusy = false → s.env.rst = false → s.env.waiting = w :: rest → s.nothingDueBy s.env.now →
  decode w = some i → i.isEvent = false →
  step s = exec i { s with hpBusy := true, env := { s.env with waiting := rest } }

/-- R260, R262, R83: when the next input is a command word that the host presents to the free port, and no timer is
due by its time stamp, the step is stamped with it and runs the command the word decodes to. A stamp in the past
counts as now (the model's choice, log 2). -/
def Obligations.StepRunsPresentedCommand : Prop :=
  ∀ (s : State) (t : Nat) (w : CmdWord) (rest : List Input) (i : Instr),
  s.hpBusy = false → s.env.rst = false → s.env.waiting = [] → s.env.inbox = ⟨t, .host w⟩ :: rest →
  s.nothingDueBy (max s.env.now t) → decode w = some i → i.isEvent = false →
  step s = exec i { s with hpBusy := true, env := { s.env with inbox := rest, now := max s.env.now t } }

/-- R105, R265, R83: when the next input is a rising edge, a received byte or an event word, no command is there to be
accepted first and no timer is due by its stamp, the step runs the event: `EV_PINA`, `EV_PINB` or `EV_PUSH` of the
edge's encoder, `EV_RXBYTE` of the byte, or the event the word decodes to. A stamp in the past counts as now, and a
raw word may be fed to the channel (the model's choices, log 2 and log 8). -/
def Obligations.StepRunsDispatchedEvent : Prop :=
  ∀ (s : State) (t : Nat) (x : Item) (rest : List Input) (i : Instr),
  s.env.rst = false → (s.hpBusy = true ∨ s.env.waiting = []) → s.env.inbox = ⟨t, x⟩ :: rest →
  s.nothingDueBy (max s.env.now t) →
  ((∃ e : Fin 2, x = .edge .a e true ∧ i = .evPina (BitVec.ofNat 8 e.val)) ∨
    (∃ e : Fin 2, x = .edge .b e true ∧ i = .evPinb (BitVec.ofNat 8 e.val)) ∨
    (∃ e : Fin 2, x = .edge .push e true ∧ i = .evPush (BitVec.ofNat 8 e.val)) ∨
    (∃ b, x = .rx b ∧ i = .evRxbyte b) ∨
    (∃ w, x = .event w ∧ decode w = some i ∧ i.isEvent = true)) →
  step s = exec i { s with env := { s.env with inbox := rest, now := max s.env.now t } }

/-- R263, R16: an armed timer whose deadline comes at or before the stamp of the next input, and before the other
timer's deadline, is the next step: its expiry event runs, stamped with the deadline. A stamp in the past counts as
now (the model's choice, log 2). -/
def Obligations.DueTimerFiresBeforeTheInput : Prop :=
  ∀ (s : State) (i : Input) (rest : List Input) (d : Nat),
  (s.hpBusy = true ∨ s.env.rst = true ∨ s.env.waiting = []) → s.env.inbox = i :: rest →
  s.env.now ≤ d → d ≤ max s.env.now i.time →
  (s.enc.gt = some d → (∀ d', s.fr.qt = some d' → d < d') →
    step s = exec .evGlitchExpire { s with env := { s.env with now := d } }) ∧
  (s.fr.qt = some d → (∀ d', s.enc.gt = some d' → d < d') →
    step s = exec .evQuietExpire { s with env := { s.env with now := d } })

/-- R263: a timer fires whether or not any other step follows: with no input or command to come, time reaches the
deadline of the timer that is due first, the other being disarmed or due later, and its expiry runs. -/
def Obligations.TimerFiresWithNothingToCome : Prop := ∀ (s : State) (d : Nat),
  s.env.inbox = [] → s.env.waiting = [] → s.env.now ≤ d →
  (s.enc.gt = some d → (∀ d', s.fr.qt = some d' → d < d') →
    step s = exec .evGlitchExpire { s with env := { s.env with now := d } }) ∧
  (s.fr.qt = some d → (∀ d', s.enc.gt = some d' → d < d') →
    step s = exec .evQuietExpire { s with env := { s.env with now := d } })

/-- R84, R263, U9: when both timers are due at one deadline, with nothing to come or an input stamped then or later,
either expiry goes first, and the second step is the other one: whichever it was, the two steps leave both encoders
`Idle`, `READY` set and both timers disarmed, and change nothing else. A stamp in the past counts as now (the model's
choice, log 2). -/
def Obligations.TiedTimersBothFireInEitherOrder : Prop := ∀ (s : State) (d : Nat),
  s.enc.gt = some d → s.fr.qt = some d → s.env.now ≤ d →
  (s.env.inbox = [] ∧ s.env.waiting = [] ∨
    ∃ i rest, (s.hpBusy = true ∨ s.env.rst = true ∨ s.env.waiting = []) ∧ s.env.inbox = i :: rest ∧
      d ≤ max s.env.now i.time) →
  (step s = exec .evGlitchExpire { s with env := { s.env with now := d } } ∨
    step s = exec .evQuietExpire { s with env := { s.env with now := d } }) ∧
  ∃ t, core.run 2 s = .next t ∧ (∀ e : Fin 2, t.enc.unit[e] = { s.enc.unit[e] with st := .idle }) ∧ t.enc.gt = none ∧
    t.fr = { s.fr with ready := true, qt := none } ∧
    t = { s with enc := t.enc, fr := t.fr, env := { s.env with now := d } }

/-- R102, R105, R281: a word on the host port that no command row of the opcode map matches gets the response
`ILLEGAL`, when the host presents it to the free port and when it waited on the busy port and is accepted later; it
changes nothing and starts no bus transfer. A stamp in the past counts as now, and a waiting word goes before the next
input (the model's choices, log 2 and log 4). -/
def Obligations.HostWordWithoutCommandIsIllegal : Prop := ∀ (s : State) (w : CmdWord),
  s.hpBusy = false → s.env.rst = false → (∀ r ∈ opcodeMap, w &&& r.mask = r.bits → r.isEvent = true) →
  (∀ (t : Nat) (rest : List Input), s.env.waiting = [] → s.env.inbox = ⟨t, .host w⟩ :: rest →
    s.nothingDueBy (max s.env.now t) → ∃ t', step s = .next t' ∧
      ErrorOnly { s with env := { s.env with inbox := rest, now := max s.env.now t } } t' .illegal) ∧
  (∀ rest : List CmdWord, s.env.waiting = w :: rest → s.nothingDueBy s.env.now → ∃ t', step s = .next t' ∧
    ErrorOnly { s with env := { s.env with waiting := rest } } t' .illegal)

/-- R105, R109, U5: a word fed to the event channel that no event row matches, or an event whose encoder number is
above 1, is refused: the step does not happen. A stamp in the past counts as now (the model's choice, log 2). -/
def Obligations.InvalidEventWordIsRefused : Prop :=
  ∀ (s : State) (t : Nat) (w : CmdWord) (rest : List Input),
  (s.hpBusy = true ∨ s.env.waiting = []) → s.env.rst = false → s.env.inbox = ⟨t, .event w⟩ :: rest →
  s.nothingDueBy (max s.env.now t) →
  ((∀ r ∈ opcodeMap, w &&& r.mask = r.bits → r.isEvent = false) → step s = .refused (.badEventWord w)) ∧
  (∀ enc : BitVec 8, 2 ≤ enc.toNat → (w = encode (.evPina enc) ∨ w = encode (.evPinb enc) ∨ w = encode (.evPush enc)) →
    step s = .refused (.badEncoder enc))

/-- R33, R260, R329: a command presented while the port is busy is not accepted; it waits on the port, behind those
that wait already, and no unit changes. The port's queue and the stamp in the past are the model's (log 2, log 4). -/
def Obligations.BusyPortHoldsTheCommand : Prop := ∀ (s : State) (t : Nat) (w : CmdWord) (rest : List Input),
  s.hpBusy = true → s.env.inbox = ⟨t, .host w⟩ :: rest → s.nothingDueBy (max s.env.now t) →
  step s = .next { s with env := { s.env with
    inbox := rest, now := max s.env.now t, waiting := s.env.waiting ++ [w] } }

/-- R310, R311, R312: asserting the power-on reset puts every element of the block at its reset value, frees the port
with no response, abandons a posted transfer and disarms both timers; what lies outside the block stays. The reset
line and the stamp in the past are the model's (log 2, log 9). -/
def Obligations.PowerOnResetAbandonsWorkInFlight : Prop := ∀ (s : State) (t : Nat) (rest : List Input),
  (s.hpBusy = true ∨ s.env.rst = true ∨ s.env.waiting = []) → s.env.inbox = ⟨t, .resetOn⟩ :: rest →
  s.nothingDueBy (max s.env.now t) →
  ∃ t', step s = .next t' ∧ SameUnits State.reset t' ∧ t'.hpBusy = false ∧ t'.xfer = none ∧
    t'.env = { s.env with inbox := rest, now := max s.env.now t, rst := true }

/-- R265, R311, U13: the inputs that do nothing but let time pass: a falling edge; an edge, byte or event word that
arrives during reset, which is lost (a word that R109 would refuse included: the model's choice, log 21); a bus answer
with no transfer outstanding, or to a transfer before the latest one, which is ignored whatever is outstanding now.
The reset line, a stamp in the past and the numbering of transfers are the model's (log 2, log 9, log 10). -/
def Obligations.InputsWithoutEffect : Prop := ∀ (s : State) (t : Nat) (x : Item) (rest : List Input),
  (s.hpBusy = true ∨ s.env.rst = true ∨ s.env.waiting = []) → s.env.inbox = ⟨t, x⟩ :: rest →
  s.nothingDueBy (max s.env.now t) →
  ((∃ p e, x = .edge p e false) ∨
    s.env.rst = true ∧ ((∃ p e, x = .edge p e true) ∨ (∃ b, x = .rx b) ∨ (∃ w, x = .event w)) ∨
    (∃ nr, (s.xfer = none ∨ nr ≠ s.env.posted) ∧
      ((∃ data, x = .busData nr data) ∨ (∃ m, x = .busCount nr m)))) →
  step s = .next { s with env := { s.env with inbox := rest, now := max s.env.now t } }

/-- R262: time stamps never decrease along the step order. -/
def Obligations.TimeNeverDecreases : Prop := ∀ s t : State, step s = .next t → s.env.now ≤ t.env.now

/-- R105, R109, R268: a step is refused only for an input that is a raw event word: the block's own sources never make
an invalid one. -/
def Obligations.OnlyRawEventWordsAreRefused : Prop := ∀ (s : State) (r : Refusal), step s = .refused r →
  ∃ t w rest, s.env.inbox = ⟨t, .event w⟩ :: rest ∧ (decodeEvent w = none ∨ ∃ i, decode w = some i ∧ i.wellFormed = false)

/-! ## Commands in general -/

/-- R107, R282: a command with an operand out of its legal range gets `RANGE_ERROR`, changes nothing and starts no bus
transfer. -/
def Obligations.OperandOutOfRangeGivesRangeError : Prop := ∀ (i : Instr) (s : State),
  i.isEvent = false → operandsLegal i = false → ∃ t, exec i s = .next t ∧ ErrorOnly s t .rangeError

/-- R104, R260: a command ends with exactly one response and the port free, or posts a bus transfer, with no response
yet and the port busy; an event emits no response and leaves the port as it is. -/
def Obligations.OneResponsePerCommand : Prop := ∀ (i : Instr) (s t : State), exec i s = .next t →
  (i.isEvent = false →
    (∃ r, t.env = { s.env with out := s.env.out ++ [r] } ∧ t.hpBusy = false) ∨
    (t.env = { s.env with posted := s.env.posted + 1 } ∧ t.hpBusy = true ∧ t.xfer.isSome = true ∧
      ((∃ c, i = .brRead c) ∨ (∃ u, i = .brWrite u)))) ∧
  (i.isEvent = true → t.env = s.env ∧ t.hpBusy = s.hpBusy ∧ t.xfer = s.xfer)

/-- R13, R104, R280, R285: an error is precise: a response whose status is not `OK` carries value 0 and no bytes, and
the units and the posted transfer are as before the command. -/
def Obligations.ErrorsAreStateless : Prop := ∀ (i : Instr) (s t : State) (r : Response), exec i s = .next t →
  t.env.out = s.env.out ++ [r] → r.status ≠ .ok → r.value = 0 ∧ r.bytes = [] ∧ SameUnits s t ∧ t.xfer = s.xfer

/-- R80: the observation commands have no side effect: every unit is as it was. -/
def Obligations.ObservationsHaveNoSideEffect : Prop := ∀ (i : Instr) (s t : State), exec i s = .next t →
  ((∃ a, i = .brGetres a) ∨ (∃ a, i = .brGetimg a) ∨ i = .rdsGetps ∨ (∃ l q, i = .rdsRender l q) ∨
    (∃ k, i = .rdsGetslot k) ∨ i = .rdsGetstate ∨ (∃ e, i = .encState e) ∨ (∃ l, i = .frGetline l) ∨ i = .frState) →
  SameUnits s t ∧ t.xfer = s.xfer ∧ ∃ r, t.env = { s.env with out := s.env.out ++ [r] }

/-- R2: the units share no state. What each unit holds after any instruction depends on nothing but what it held, the
instruction and the time stamp, whatever the other units, the host port and the environment are; an instruction whose
`UNIT` field names one of the units 1 to 4 writes no other unit, and the response it emits and the transfer it posts
depend on its own unit alone (of a `SYS` command, unit 0, on none). A bus answer, which completes a bridge command,
writes no unit but the bridge, and what it leaves there and the response it emits depend on the bridge, the transfer
and the answer alone (that an answer carries its transfer's number is the model's, log 10). -/
def Obligations.UnitsDoNotInterfere : Prop :=
  (∀ (i : Instr) (s s' t t' : State),
    exec i s = .next t → exec i s' = .next t' → s.env.now = s'.env.now →
    let unit : BitVec 4 := (encode i).extractLsb' 28 4
    ((s.br = s'.br → t.br = t'.br) ∧ (s.rds = s'.rds → t.rds = t'.rds) ∧
      (s.enc = s'.enc → t.enc = t'.enc) ∧ (s.fr = s'.fr → t.fr = t'.fr)) ∧
    (unit ≠ 0 → (unit ≠ 1 → t.br = s.br) ∧ (unit ≠ 2 → t.rds = s.rds) ∧
      (unit ≠ 3 → t.enc = s.enc) ∧ (unit ≠ 4 → t.fr = s.fr)) ∧
    ((unit = 1 → s.br = s'.br) → (unit = 2 → s.rds = s'.rds) → (unit = 3 → s.enc = s'.enc) →
      (unit = 4 → s.fr = s'.fr) → SameRecord s t s' t' ∧ (s.xfer = s'.xfer → t.xfer = t'.xfer))) ∧
  (∀ (x : Item) (s s' t t' : State), (∃ nr data, x = .busData nr data) ∨ (∃ nr m, x = .busCount nr m) →
    deliver x s = .next t → deliver x s' = .next t' → s.env.posted = s'.env.posted → s.xfer = s'.xfer →
    t.rds = s.rds ∧ t.enc = s.enc ∧ t.fr = s.fr ∧ t.br.wimg = s.br.wimg ∧ (s.br = s'.br → t.br = t'.br) ∧
      t.xfer = t'.xfer ∧ SameRecord s t s' t')

/-- R31, R32, R35 to R40, R53 to R56: which instructions write each buffer: `RES`, `WIMG`, the group latch, the target
quality, the PS buffer, the RT slots with their qualities and the stored parity, and the reply line buffer with its
lengths and cursor. `SYS_RESET` apart, any other instruction leaves them as they are. -/
def Obligations.BufferWritersAreTheNamedOnes : Prop := ∀ (i : Instr) (s t : State), exec i s = .next t →
  i ≠ .sysReset →
  (t.br.res ≠ s.br.res → ∃ c, i = .brRead c) ∧
  (t.br.wimg ≠ s.br.wimg → ∃ a w, i = .brSetimg a w) ∧
  (t.rds.grp ≠ s.rds.grp → ∃ b w, i = .rdsLoadblk b w) ∧
  (t.rds.target ≠ s.rds.target → ∃ q, i = .rdsSettarget q) ∧
  (t.rds.ps ≠ s.rds.ps ∨ t.rds.rtc ≠ s.rds.rtc ∨ t.rds.rtq ≠ s.rds.rtq ∨ t.rds.rtp ≠ s.rds.rtp →
    i = .rdsProcess ∨ i = .rdsClear) ∧
  (t.fr.line ≠ s.fr.line ∨ t.fr.len ≠ s.fr.len ∨ t.fr.curL ≠ s.fr.curL ∨ t.fr.curC ≠ s.fr.curC →
    (∃ b, i = .evRxbyte b) ∨ i = .frClear)

/-- R46, R47, R48, R49, R57: a set flag stays set until it is taken: only `ENC_TAKE` of that encoder with that kind,
or a reset, clears a token, and only `FR_TAKEREADY`, or a reset, clears `READY`. -/
def Obligations.FlagsAreClearedOnlyByTheirTake : Prop := ∀ (i : Instr) (s t : State), exec i s = .next t →
  i ≠ .sysReset →
  (∀ e : Fin 2,
    (s.enc.unit[e].fwd = true → t.enc.unit[e].fwd = false → i = .encTake (BitVec.ofNat 8 e.val) 0) ∧
    (s.enc.unit[e].rev = true → t.enc.unit[e].rev = false → i = .encTake (BitVec.ofNat 8 e.val) 1) ∧
    (s.enc.unit[e].push = true → t.enc.unit[e].push = false → i = .encTake (BitVec.ofNat 8 e.val) 2)) ∧
  (s.fr.ready = true → t.fr.ready = false → i = .frTakeready)

/-! ## System commands -/

/-- R266: `SYS_NOP` responds `(OK, 0, [])` and does nothing else. -/
def Obligations.SysNopOnlyResponds : Prop := ∀ s : State,
  ∃ t, exec .sysNop s = .next t ∧ SameUnits s t ∧ Answered s t .ok 0 []

/-- R267, R310, R312: `SYS_RESET` puts every element of the block at the value R310 lists, whatever it held, and
responds `(OK, 0, [])`; time, the inputs and the waiting commands are untouched. -/
def Obligations.SysResetRestoresEveryElement : Prop := ∀ s : State, ∃ t, exec .sysReset s = .next t ∧
  (∀ a : Fin 16, t.br.res[a] = 0 ∧ t.br.wimg[a] = 0) ∧
  (∀ b : Fin 4, t.rds.grp[b] = 0) ∧ (∀ p : Fin 8, t.rds.ps[p] = 0) ∧
  (∀ i : Fin 16, t.rds.rtq[i] = 0 ∧ ∀ j : Fin 4, t.rds.rtc[i][j] = 0) ∧
  t.rds.rtp = false ∧ t.rds.target = 3 ∧
  (∀ e : Fin 2, t.enc.unit[e] = ⟨.idle, false, false, false⟩) ∧ t.enc.gt = none ∧
  (∀ l : Fin 10, t.fr.len[l] = 0 ∧ ∀ c : Fin 50, t.fr.line[l][c] = 0) ∧
  t.fr.curL = 0 ∧ t.fr.curC = 0 ∧ t.fr.ready = false ∧ t.fr.qt = none ∧
  t.hpBusy = false ∧ t.xfer = none ∧ t.env = { s.env with out := s.env.out ++ [⟨.ok, 0, []⟩] }

/-! ## Register bridge -/

/-- R131, R136: `BR_READ count` with a legal `count` asks the bus for `2W` bytes, `W` being `count + 6` up to 9 and
`count - 10` from 10 on, and changes no unit; `BR_READ 10` moves nothing, zeroes `RES` and responds `(OK, 0, [])`; a
`count` of 0 or above 16 is a `RANGE_ERROR`. -/
def Obligations.BrReadPostsItsTransfer : Prop := ∀ (count : BitVec 8) (s : State),
  (count.toNat = 0 ∨ 17 ≤ count.toNat → ∃ t, exec (.brRead count) s = .next t ∧ ErrorOnly s t .rangeError) ∧
  (count.toNat = 10 → ∃ t, exec (.brRead count) s = .next t ∧ Answered s t .ok 0 [] ∧
    (∀ a : Fin 16, t.br.res[a] = 0) ∧ t.br.wimg = s.br.wimg ∧ t.rds = s.rds ∧ t.enc = s.enc ∧ t.fr = s.fr) ∧
  (1 ≤ count.toNat → count.toNat ≤ 9 → ∃ t, exec (.brRead count) s = .next t ∧ SameUnits s t ∧ t.hpBusy = true ∧
    t.xfer = some (.read Config.busAddr count.toNat (2 * (count.toNat + 6))) ∧
    t.env = { s.env with posted := s.env.posted + 1 }) ∧
  (11 ≤ count.toNat → count.toNat ≤ 16 → ∃ t, exec (.brRead count) s = .next t ∧ SameUnits s t ∧ t.hpBusy = true ∧
    t.xfer = some (.read Config.busAddr count.toNat (2 * (count.toNat - 10))) ∧
    t.env = { s.env with posted := s.env.posted + 1 })

/-- R74, R130, R131, R136: the bus's answer of the expected length ends the read: for `count` up to 9 the registers
below `count` come from the words after the six of the wrap portion, for `count` from 11 on the registers 0x0A up to
`count - 1` come from the words in order, every other word of `RES` is 0, big-endian; the response is `(OK, W, [])`. A
stamp in the past counts as now (the model's choice, log 2). The answer carries the number of the latest transfer (log
10). -/
def Obligations.ReadAnswerFillsRes : Prop :=
  ∀ (s : State) (t : Nat) (rest : List Input) (dev count n : Nat) (data : List Byte),
  s.hpBusy = true → s.xfer = some (.read dev count n) → s.env.inbox = ⟨t, .busData s.env.posted data⟩ :: rest →
  s.nothingDueBy (max s.env.now t) → data.length = n →
  (1 ≤ count ∧ count ≤ 9 ∧ n = 2 * (count + 6) ∨ 11 ≤ count ∧ count ≤ 16 ∧ n = 2 * (count - 10)) →
  ∃ t', step s = .next t' ∧
    (∀ a : Fin 16,
      (count ≤ 9 ∧ a.val < count → wordAt data (6 + a.val) = some t'.br.res[a]) ∧
      (11 ≤ count ∧ 10 ≤ a.val ∧ a.val < count → wordAt data (a.val - 10) = some t'.br.res[a]) ∧
      (¬ (count ≤ 9 ∧ a.val < count) ∧ ¬ (11 ≤ count ∧ 10 ≤ a.val ∧ a.val < count) → t'.br.res[a] = 0)) ∧
    t'.br.wimg = s.br.wimg ∧ t'.rds = s.rds ∧ t'.enc = s.enc ∧ t'.fr = s.fr ∧ t'.hpBusy = false ∧ t'.xfer = none ∧
    t'.env = { s.env with inbox := rest, now := max s.env.now t,
                          out := s.env.out ++ [⟨.ok, BitVec.ofNat 16 (n / 2), []⟩] }

/-- R131, R132, R283: a bus answer with any byte count other than the expected one is a `BUS_ERROR`: the transfer
ends, the port is free, and no unit changes, `RES` and `WIMG` included. A stamp in the past counts as now (the model's
choice, log 2). The answer carries the number of the latest transfer (log 10). -/
def Obligations.WrongByteCountIsBusError : Prop :=
  ∀ (s : State) (t : Nat) (x : Item) (rest : List Input),
  s.hpBusy = true → s.env.inbox = ⟨t, x⟩ :: rest → s.nothingDueBy (max s.env.now t) →
  ((∃ dev count n data, s.xfer = some (.read dev count n) ∧ x = .busData s.env.posted data ∧
      data.length ≠ n) ∨
    (∃ dev sent m, s.xfer = some (.write dev sent) ∧ x = .busCount s.env.posted m ∧ m ≠ sent.length)) →
  ∃ t', step s = .next t' ∧ SameUnits s t' ∧ t'.hpBusy = false ∧ t'.xfer = none ∧
    t'.env = { s.env with inbox := rest, now := max s.env.now t, out := s.env.out ++ [⟨.busError, 0, []⟩] }

/-- R73, R130, R132: `BR_WRITE ub` with a legal `ub` posts a write of the words `WIMG[0x02..ub]` in ascending register
order, each as two bytes, bits 15:8 first, and changes no unit; any other `ub` is a `RANGE_ERROR`. -/
def Obligations.BrWritePostsTheImage : Prop := ∀ (ub : BitVec 8) (s : State),
  (ub.toNat < 0x02 ∨ 0x0F < ub.toNat → ∃ t, exec (.brWrite ub) s = .next t ∧ ErrorOnly s t .rangeError) ∧
  (0x02 ≤ ub.toNat → ub.toNat ≤ 0x0F → ∃ t data, exec (.brWrite ub) s = .next t ∧ SameUnits s t ∧
    t.hpBusy = true ∧ t.env = { s.env with posted := s.env.posted + 1 } ∧
    t.xfer = some (.write Config.busAddr data) ∧
    data.length = 2 * (ub.toNat - 1) ∧
    ∀ a : Fin 16, 0x02 ≤ a.val → a.val ≤ ub.toNat → wordAt data (a.val - 2) = some s.br.wimg[a])

/-- R132: the bus's answer of the expected count ends the write with the response `(OK, n, [])`, `n` being the words
written; no unit changes. A stamp in the past counts as now (the model's choice, log 2). The answer carries the number
of the latest transfer (log 10). -/
def Obligations.WriteAnswerResponds : Prop :=
  ∀ (s : State) (t : Nat) (rest : List Input) (dev n : Nat) (data : List Byte),
  s.hpBusy = true → s.xfer = some (.write dev data) → data.length = 2 * n →
  s.env.inbox = ⟨t, .busCount s.env.posted (2 * n)⟩ :: rest → s.nothingDueBy (max s.env.now t) →
  ∃ t', step s = .next t' ∧ SameUnits s t' ∧ t'.hpBusy = false ∧ t'.xfer = none ∧
    t'.env = { s.env with inbox := rest, now := max s.env.now t,
                          out := s.env.out ++ [⟨.ok, BitVec.ofNat 16 n, []⟩] }

/-- R133: `BR_SETIMG addr, word` writes `WIMG[addr]`, leaves every other word and unit, and responds `(OK, 0, [])`; an
`addr` above 0x0F is a `RANGE_ERROR`. -/
def Obligations.BrSetimgWritesOneWord : Prop := ∀ (addr : BitVec 8) (word : Word) (s : State),
  (0x0F < addr.toNat → ∃ t, exec (.brSetimg addr word) s = .next t ∧ ErrorOnly s t .rangeError) ∧
  (addr.toNat ≤ 0x0F → ∃ t, exec (.brSetimg addr word) s = .next t ∧ Answered s t .ok 0 [] ∧
    (∀ a : Fin 16, t.br.wimg[a] = if a.val = addr.toNat then word else s.br.wimg[a]) ∧
    t.br.res = s.br.res ∧ t.rds = s.rds ∧ t.enc = s.enc ∧ t.fr = s.fr)

/-- R134, R135: `BR_GETRES addr` responds `(OK, RES[addr], [])` and `BR_GETIMG addr` responds `(OK, WIMG[addr], [])`,
changing nothing; an `addr` above 0x0F is a `RANGE_ERROR`. -/
def Obligations.BrGetCommandsReadOneWord : Prop := ∀ (addr : BitVec 8) (s : State),
  (0x0F < addr.toNat → (∃ t, exec (.brGetres addr) s = .next t ∧ ErrorOnly s t .rangeError) ∧
    (∃ t, exec (.brGetimg addr) s = .next t ∧ ErrorOnly s t .rangeError)) ∧
  (∀ a : Fin 16, a.val = addr.toNat →
    (∃ t, exec (.brGetres addr) s = .next t ∧ SameUnits s t ∧ Answered s t .ok s.br.res[a] []) ∧
    (∃ t, exec (.brGetimg addr) s = .next t ∧ SameUnits s t ∧ Answered s t .ok s.br.wimg[a] []))

/-! ## RDS group assembler -/

/-- R160: `RDS_LOADBLK blk, word` writes block `blk` of the latch, leaves the other three and everything else, and
responds `(OK, 0, [])`; a `blk` above 3 is a `RANGE_ERROR`. -/
def Obligations.RdsLoadblkWritesOneBlock : Prop := ∀ (blk : BitVec 8) (word : Word) (s : State),
  (3 < blk.toNat → ∃ t, exec (.rdsLoadblk blk word) s = .next t ∧ ErrorOnly s t .rangeError) ∧
  (blk.toNat ≤ 3 → ∃ t, exec (.rdsLoadblk blk word) s = .next t ∧ Answered s t .ok 0 [] ∧
    (∀ b : Fin 4, t.rds.grp[b] = if b.val = blk.toNat then word else s.rds.grp[b]) ∧
    t.rds = { s.rds with grp := t.rds.grp } ∧ t.br = s.br ∧ t.enc = s.enc ∧ t.fr = s.fr)

/-- R161: a group with the traffic-program flag (bit 10 of Block B) is ignored with value 0, whatever its type; a
group of a type (bits 15:12) other than 0 and 2 is ignored with value 1. -/
def Obligations.RdsProcessIgnoresOtherGroups : Prop := ∀ s : State,
  let b := s.rds.grp[1]
  (b.getLsbD 10 = true → ∃ t, exec .rdsProcess s = .next t ∧ SameUnits s t ∧ Answered s t .ok 0 []) ∧
  (b.getLsbD 10 = false → b.toNat / 4096 ≠ 0 → b.toNat / 4096 ≠ 2 →
    ∃ t, exec .rdsProcess s = .next t ∧ SameUnits s t ∧ Answered s t .ok 1 [])

/-- R75, R161, R163: a group of type 0 without the traffic-program flag writes Block D's two characters, high byte
first, at `2 * (idx mod 4)` of the PS buffer and nothing else; the value is 2, or 10 when Block C differs from
`PS_SENTINEL`. -/
def Obligations.RdsProcessAssemblesPs : Prop := ∀ s : State,
  let b := s.rds.grp[1]
  b.getLsbD 10 = false → b.toNat / 4096 = 0 →
  ∃ t, exec .rdsProcess s = .next t ∧
    Answered s t .ok (if s.rds.grp[2] = Config.psSentinel then 2 else 10) [] ∧
    (∀ p : Fin 8, t.rds.ps[p].toNat =
      if p.val = 2 * (b.toNat % 4) then s.rds.grp[3].toNat / 256
      else if p.val = 2 * (b.toNat % 4) + 1 then s.rds.grp[3].toNat % 256 else s.rds.ps[p].toNat) ∧
    t.rds = { s.rds with ps := t.rds.ps } ∧ t.br = s.br ∧ t.enc = s.enc ∧ t.fr = s.fr

/-- R165, reached through R161 and R164: a group of type 2 without the traffic-program flag votes its four characters,
from Blocks C and D, into the slot of its low 4 index bits: an empty slot takes them with quality 1, a slot that holds
the same four gains 1 while below `TARGET`, any other slot takes them with quality 1; no other slot and no other
buffer changes. -/
def Obligations.RdsProcessVotesRt : Prop := ∀ (s : State) (slot : Fin 16),
  let b := s.rds.grp[1]
  let new : Fin 4 → Nat := fun j =>
    if j = 0 then s.rds.grp[2].toNat / 256 else if j = 1 then s.rds.grp[2].toNat % 256
    else if j = 2 then s.rds.grp[3].toNat / 256 else s.rds.grp[3].toNat % 256
  b.getLsbD 10 = false → b.toNat / 4096 = 2 → slot.val = b.toNat % 16 →
  ∃ t, exec .rdsProcess s = .next t ∧
    (∀ j : Fin 4, t.rds.rtc[slot][j].toNat = new j) ∧
    (s.rds.rtq[slot] = 0 → t.rds.rtq[slot].toNat = 1) ∧
    (s.rds.rtq[slot] ≠ 0 → (∀ j : Fin 4, s.rds.rtc[slot][j].toNat = new j) →
      t.rds.rtq[slot].toNat =
        if s.rds.rtq[slot].toNat < s.rds.target.toNat then s.rds.rtq[slot].toNat + 1 else s.rds.rtq[slot].toNat) ∧
    (s.rds.rtq[slot] ≠ 0 → ¬ (∀ j : Fin 4, s.rds.rtc[slot][j].toNat = new j) → t.rds.rtq[slot].toNat = 1) ∧
    (∀ i : Fin 16, i ≠ slot → t.rds.rtc[i] = s.rds.rtc[i] ∧ t.rds.rtq[i] = s.rds.rtq[i]) ∧
    t.rds.grp = s.rds.grp ∧ t.rds.ps = s.rds.ps ∧ t.rds.target = s.rds.target ∧
    t.br = s.br ∧ t.enc = s.enc ∧ t.fr = s.fr

/-- R161, R164, C1: a group of type 2 without the traffic-program flag, with slot `n` and parity `p`: its parity is
stored; the message completes, with length `n`, exactly when the parity differs from the stored one and every slot
below `n` has reached `TARGET` before the group is voted; the value is 3, and 7 plus 16 times the length on
completion. -/
def Obligations.RdsProcessCompletesOnFlip : Prop := ∀ s : State,
  let b := s.rds.grp[1]
  let n := b.toNat % 16
  b.getLsbD 10 = false → b.toNat / 4096 = 2 →
  ∃ t, exec .rdsProcess s = .next t ∧ t.rds.rtp = b.getLsbD 4 ∧
    ((b.getLsbD 4 ≠ s.rds.rtp ∧ ∀ i : Fin 16, i.val < n → s.rds.target.toNat ≤ s.rds.rtq[i].toNat) →
      Answered s t .ok (BitVec.ofNat 16 (7 + 16 * n)) []) ∧
    (¬ (b.getLsbD 4 ≠ s.rds.rtp ∧ ∀ i : Fin 16, i.val < n → s.rds.target.toNat ≤ s.rds.rtq[i].toNat) →
      Answered s t .ok 3 [])

/-- R162: `RDS_SETTARGET tq` sets `TARGET` and nothing else and responds `(OK, 0, [])`; `tq` of 0 or above 3 is a
`RANGE_ERROR`. -/
def Obligations.RdsSettargetSetsTarget : Prop := ∀ (tq : BitVec 8) (s : State),
  (tq.toNat = 0 ∨ 3 < tq.toNat → ∃ t, exec (.rdsSettarget tq) s = .next t ∧ ErrorOnly s t .rangeError) ∧
  (1 ≤ tq.toNat → tq.toNat ≤ 3 → ∃ t, exec (.rdsSettarget tq) s = .next t ∧ Answered s t .ok 0 [] ∧
    t.rds.target.toNat = tq.toNat ∧ t.rds = { s.rds with target := t.rds.target } ∧
    t.br = s.br ∧ t.enc = s.enc ∧ t.fr = s.fr)

/-- R166: `RDS_RENDER len, q` responds `(OK, len, bytes)` with `4 * len` bytes: byte `4i + j` is character `j` of slot
`i` where its quality is at least `q`, and a space otherwise; nothing changes; a `len` above 16 is a `RANGE_ERROR`. -/
def Obligations.RdsRenderBlanksLowQuality : Prop := ∀ (len : BitVec 8) (q : BitVec 2) (s : State),
  (16 < len.toNat → ∃ t, exec (.rdsRender len q) s = .next t ∧ ErrorOnly s t .rangeError) ∧
  (len.toNat ≤ 16 → ∃ t bytes, exec (.rdsRender len q) s = .next t ∧ SameUnits s t ∧
    Answered s t .ok (BitVec.ofNat 16 len.toNat) bytes ∧ bytes.length = 4 * len.toNat ∧
    ∀ (i : Fin 16) (j : Fin 4), i.val < len.toNat →
      bytes[4 * i.val + j.val]? = some (if q.toNat ≤ s.rds.rtq[i].toNat then s.rds.rtc[i][j] else 0x20))

/-- R167, R169, R170: `RDS_GETPS` responds with the eight PS bytes and value 0; `RDS_GETSLOT slot` with the slot's
quality and its four bytes; `RDS_GETSTATE` with `TARGET + 4 * RTP`; none changes anything, and a `slot` above 15 is a
`RANGE_ERROR`. -/
def Obligations.RdsObservationsReadTheUnit : Prop := ∀ s : State,
  (∃ t bytes, exec .rdsGetps s = .next t ∧ SameUnits s t ∧ Answered s t .ok 0 bytes ∧ bytes.length = 8 ∧
    ∀ p : Fin 8, bytes[p.val]? = some s.rds.ps[p]) ∧
  (∀ slot : BitVec 8, 15 < slot.toNat → ∃ t, exec (.rdsGetslot slot) s = .next t ∧ ErrorOnly s t .rangeError) ∧
  (∀ (slot : BitVec 8) (i : Fin 16), i.val = slot.toNat → ∃ t bytes, exec (.rdsGetslot slot) s = .next t ∧
    SameUnits s t ∧ Answered s t .ok (BitVec.ofNat 16 s.rds.rtq[i].toNat) bytes ∧ bytes.length = 4 ∧
    ∀ j : Fin 4, bytes[j.val]? = some s.rds.rtc[i][j]) ∧
  (∃ t, exec .rdsGetstate s = .next t ∧ SameUnits s t ∧
    Answered s t .ok (BitVec.ofNat 16 (s.rds.target.toNat + 4 * s.rds.rtp.toNat)) [])

/-- R168: `RDS_CLEAR` zeroes `PS`, `RTC`, `RTQ` and `RTP`, keeps `TARGET`, `GRP` and every other unit, and responds
`(OK, 0, [])`. -/
def Obligations.RdsClearKeepsTargetAndLatch : Prop := ∀ s : State, ∃ t, exec .rdsClear s = .next t ∧
  Answered s t .ok 0 [] ∧ (∀ p : Fin 8, t.rds.ps[p] = 0) ∧
  (∀ i : Fin 16, t.rds.rtq[i] = 0 ∧ ∀ j : Fin 4, t.rds.rtc[i][j] = 0) ∧ t.rds.rtp = false ∧
  t.rds.target = s.rds.target ∧ t.rds.grp = s.rds.grp ∧ t.br = s.br ∧ t.enc = s.enc ∧ t.fr = s.fr

/-! ## Encoder debouncer -/

/-- R87, R200: `ENC_TAKE enc, k` returns the named token and clears it in the one step, leaving the other tokens, the
quadrature state, the other encoder and the timer; `enc` above 1 or `k = 3` is a `RANGE_ERROR`. -/
def Obligations.EncTakeReadsAndClearsOneToken : Prop := ∀ (enc : BitVec 8) (k : BitVec 2) (s : State),
  (1 < enc.toNat ∨ k = 3 → ∃ t, exec (.encTake enc k) s = .next t ∧ ErrorOnly s t .rangeError) ∧
  (∀ e : Fin 2, e.val = enc.toNat → k ≠ 3 → ∃ t, exec (.encTake enc k) s = .next t ∧
    Answered s t .ok (BitVec.ofNat 16 (if k = 0 then s.enc.unit[e].fwd.toNat else if k = 1 then s.enc.unit[e].rev.toNat
      else s.enc.unit[e].push.toNat)) [] ∧
    t.enc.unit[e].st = s.enc.unit[e].st ∧
    t.enc.unit[e].fwd = (s.enc.unit[e].fwd && k != 0) ∧ t.enc.unit[e].rev = (s.enc.unit[e].rev && k != 1) ∧
    t.enc.unit[e].push = (s.enc.unit[e].push && k != 2) ∧
    (∀ e' : Fin 2, e' ≠ e → t.enc.unit[e'] = s.enc.unit[e']) ∧ t.enc.gt = s.enc.gt ∧
    t.br = s.br ∧ t.rds = s.rds ∧ t.fr = s.fr)

/-- R45, R63, R201: `ENC_STATE enc` responds with `ENC_ST` (0 Idle, 1 AKeyed, 2 BKeyed) in bits 1:0, `FWD` in bit 2,
`REV` in bit 3, `PUSH` in bit 4, `GT.armed` in bit 5, and changes nothing; `enc` above 1 is a `RANGE_ERROR`. -/
def Obligations.EncStateReportsOneEncoder : Prop := ∀ (enc : BitVec 8) (s : State),
  (1 < enc.toNat → ∃ t, exec (.encState enc) s = .next t ∧ ErrorOnly s t .rangeError) ∧
  (∀ e : Fin 2, e.val = enc.toNat → ∃ t, exec (.encState enc) s = .next t ∧ SameUnits s t ∧
    Answered s t .ok (BitVec.ofNat 16
      ((match s.enc.unit[e].st with | .idle => 0 | .aKeyed => 1 | .bKeyed => 2) + 4 * s.enc.unit[e].fwd.toNat +
        8 * s.enc.unit[e].rev.toNat + 16 * s.enc.unit[e].push.toNat + 32 * s.enc.gt.isSome.toNat)) [])

/-- R206: the transition table of encoder `e`, with `now` the step's time stamp: what each event of encoder `e` makes
of its state and tokens and of the glitch timer, the other encoder and the other units keeping everything; and the
expiry, which returns encoder `e` to `Idle` from any state, as it does the other one. -/
def Obligations.EncoderTransitionTable : Prop := ∀ (s : State) (e : Fin 2) (x : Encoder),
  let enc := BitVec.ofNat 8 e.val
  let armed := some (s.env.now + Config.tGlitch)
  let makes (i : Instr) (y : Encoder) (gt : Option Nat) : Prop := ∃ t, exec i s = .next t ∧
    t.enc.unit[e] = y ∧ (∀ e' : Fin 2, e' ≠ e → t.enc.unit[e'] = s.enc.unit[e']) ∧ t.enc.gt = gt ∧
    t = { s with enc := t.enc }
  s.enc.unit[e] = x →
  (x.st = .idle → makes (.evPina enc) { x with st := .aKeyed } armed ∧
    makes (.evPinb enc) { x with st := .bKeyed } armed ∧ makes (.evPush enc) { x with push := true } s.enc.gt) ∧
  (x.st = .aKeyed → makes (.evPina enc) { x with st := .idle } s.enc.gt ∧
    makes (.evPinb enc) { x with st := .idle, fwd := true } s.enc.gt ∧
    makes (.evPush enc) { x with push := true } s.enc.gt) ∧
  (x.st = .bKeyed → makes (.evPina enc) { x with st := .idle, rev := true } s.enc.gt ∧
    makes (.evPinb enc) { x with st := .idle } s.enc.gt ∧ makes (.evPush enc) { x with push := true } s.enc.gt) ∧
  (∃ t, exec .evGlitchExpire s = .next t ∧ t.enc.unit[e] = { x with st := .idle } ∧
    (∀ e' : Fin 2, t.enc.unit[e'] = { s.enc.unit[e'] with st := .idle }) ∧ t = { s with enc := t.enc })

/-- R16, R205: `EV_GLITCH_EXPIRE` returns both encoders to `Idle`, whatever their states, leaves every token, disarms
the timer and changes nothing else. -/
def Obligations.GlitchExpiryReturnsBothToIdle : Prop := ∀ s : State, ∃ t, exec .evGlitchExpire s = .next t ∧
  (∀ e : Fin 2, t.enc.unit[e] = { s.enc.unit[e] with st := .idle }) ∧ t.enc.gt = none ∧ t = { s with enc := t.enc }

/-- R202, R203, R263: a full forward turn within the timeout: pin A rises on an `Idle` encoder at time `t1`, pin B at
`t2` before `t1 + T_GLITCH`, and nothing else comes between; after the two steps the encoder is `Idle` with its
forward token set, and its other tokens and the other encoder are as they were. -/
def Obligations.ForwardTurnWithinTheTimeout : Prop :=
  ∀ (s : State) (e : Fin 2) (t1 t2 : Nat) (rest : List Input),
  s.env.rst = false → s.env.waiting = [] → s.fr.qt = none → (∀ d, s.enc.gt = some d → t1 < d) →
  s.enc.unit[e].st = .idle → s.env.inbox = ⟨t1, .edge .a e true⟩ :: ⟨t2, .edge .b e true⟩ :: rest →
  s.env.now ≤ t1 → t1 ≤ t2 → t2 < t1 + Config.tGlitch →
  ∃ t, core.run 2 s = .next t ∧ t.enc.unit[e] = { s.enc.unit[e] with fwd := true } ∧
    (∀ e' : Fin 2, e' ≠ e → t.enc.unit[e'] = s.enc.unit[e']) ∧ t.env.inbox = rest

/-- R205, R263: pin A or B rises on an `Idle` encoder and no further edge comes before `T_GLITCH` has passed: the
second step is the expiry, after which both encoders are `Idle`, with no token gained, and the timer is disarmed. -/
def Obligations.UnfinishedTurnTimesOut : Prop :=
  ∀ (s : State) (e : Fin 2) (pin : Pin) (t1 : Nat) (rest : List Input),
  pin ≠ .push → s.env.rst = false → s.env.waiting = [] → s.fr.qt = none → (∀ d, s.enc.gt = some d → t1 < d) →
  s.enc.unit[e].st = .idle → s.env.inbox = ⟨t1, .edge pin e true⟩ :: rest → s.env.now ≤ t1 →
  (∀ i rest', rest = i :: rest' → t1 + Config.tGlitch ≤ i.time) →
  ∃ t, core.run 2 s = .next t ∧ (∀ e' : Fin 2, t.enc.unit[e'] = { s.enc.unit[e'] with st := .idle }) ∧
    t.enc.gt = none ∧ t.env.now = t1 + Config.tGlitch ∧ t.env.inbox = rest

/-! ## Reply framer -/

/-- R230, R231: `EV_RXBYTE b`: CR, NUL and any byte of a full buffer change nothing; any other byte is stored at the
cursor and sets the line's length; if it is LF or the 50th of its line the cursor goes to the start of the next line
and the quiet timer is armed at `now + T_QUIET`, else the column advances and the timer is cancelled. -/
def Obligations.RxByteFramesOneByte : Prop := ∀ (b : Byte) (s : State),
  ((b = 0x0D ∨ b = 0x00 ∨ s.fr.curL.val = 10) → exec (.evRxbyte b) s = .next s) ∧
  (b ≠ 0x0D → b ≠ 0x00 → s.fr.curL.val < 10 → ∃ t, exec (.evRxbyte b) s = .next t ∧
    (∀ (l : Fin 10) (c : Fin 50), t.fr.line[l][c] =
      if l.val = s.fr.curL.val ∧ c = s.fr.curC then b else s.fr.line[l][c]) ∧
    (∀ l : Fin 10, t.fr.len[l].val = if l.val = s.fr.curL.val then s.fr.curC.val + 1 else s.fr.len[l].val) ∧
    ((b = 0x0A ∨ s.fr.curC.val = 49) → t.fr.curL.val = s.fr.curL.val + 1 ∧ t.fr.curC.val = 0 ∧
      t.fr.qt = some (s.env.now + Config.tQuiet)) ∧
    (b ≠ 0x0A → s.fr.curC.val ≠ 49 → t.fr.curL = s.fr.curL ∧ t.fr.curC.val = s.fr.curC.val + 1 ∧ t.fr.qt = none) ∧
    t.fr.ready = s.fr.ready ∧ t = { s with fr := t.fr })

/-- R16, R236: `EV_QUIET_EXPIRE` sets `READY`, disarms the timer and changes nothing else. -/
def Obligations.QuietExpirySetsReady : Prop := ∀ s : State, ∃ t, exec .evQuietExpire s = .next t ∧
  t.fr.ready = true ∧ t.fr.qt = none ∧ t = { s with fr := { s.fr with ready := t.fr.ready, qt := t.fr.qt } }

/-- R231, R236, R263: an accepted byte that closes a line at `t1`, being LF or the 50th of its line, followed by
silence for `T_QUIET`, makes a reply ready: the second step sets `READY`, at `t1 + T_QUIET`. -/
def Obligations.ClosedLineThenSilenceIsReady : Prop := ∀ (s : State) (t1 : Nat) (b : Byte) (rest : List Input),
  s.env.rst = false → s.env.waiting = [] → s.enc.gt = none → (∀ d, s.fr.qt = some d → t1 < d) →
  s.fr.curL.val < 10 → b ≠ 0x0D → b ≠ 0x00 → (b = 0x0A ∨ s.fr.curC.val = 49) →
  s.env.inbox = ⟨t1, .rx b⟩ :: rest → s.env.now ≤ t1 →
  (∀ i rest', rest = i :: rest' → t1 + Config.tQuiet ≤ i.time) →
  ∃ t, core.run 2 s = .next t ∧ t.fr.ready = true ∧ t.fr.qt = none ∧ t.fr.curL.val = s.fr.curL.val + 1 ∧
    t.fr.curC.val = 0 ∧ t.env.now = t1 + Config.tQuiet

/-- R232, R87: `FR_TAKEREADY` returns `READY` and clears it in one step; the buffer and the timer stay. -/
def Obligations.FrTakereadyReadsAndClears : Prop := ∀ s : State, ∃ t, exec .frTakeready s = .next t ∧
  Answered s t .ok (BitVec.ofNat 16 s.fr.ready.toNat) [] ∧ t.fr = { s.fr with ready := false } ∧
  t.br = s.br ∧ t.rds = s.rds ∧ t.enc = s.enc

/-- R233: `FR_GETLINE line` responds with the line's length and its stored bytes, changing nothing; a `line` above 9
is a `RANGE_ERROR`. -/
def Obligations.FrGetlineReadsTheStoredBytes : Prop := ∀ (line : BitVec 8) (s : State),
  (9 < line.toNat → ∃ t, exec (.frGetline line) s = .next t ∧ ErrorOnly s t .rangeError) ∧
  (∀ l : Fin 10, l.val = line.toNat → ∃ t bytes, exec (.frGetline line) s = .next t ∧ SameUnits s t ∧
    Answered s t .ok (BitVec.ofNat 16 s.fr.len[l].val) bytes ∧ bytes.length = s.fr.len[l].val ∧
    ∀ c : Fin 50, c.val < s.fr.len[l].val → bytes[c.val]? = some s.fr.line[l][c])

/-- R234: `FR_CLEAR` zeroes lines, lengths and cursor, keeps `READY`, the timer and every other unit, and responds
`(OK, 0, [])`. -/
def Obligations.FrClearKeepsTimerAndFlag : Prop := ∀ s : State, ∃ t, exec .frClear s = .next t ∧
  Answered s t .ok 0 [] ∧ (∀ l : Fin 10, t.fr.len[l] = 0 ∧ ∀ c : Fin 50, t.fr.line[l][c] = 0) ∧
  t.fr.curL = 0 ∧ t.fr.curC = 0 ∧ t.fr.ready = s.fr.ready ∧ t.fr.qt = s.fr.qt ∧
  t.br = s.br ∧ t.rds = s.rds ∧ t.enc = s.enc

/-- R63, R235: `FR_STATE` responds with `CUR_L` in bits 3:0, `CUR_C` in bits 9:4, `QT.armed` in bit 10 and `READY` in
bit 11, and changes nothing. -/
def Obligations.FrStateReportsTheCursor : Prop := ∀ s : State, ∃ t, exec .frState s = .next t ∧ SameUnits s t ∧
  Answered s t .ok (BitVec.ofNat 16 (s.fr.curL.val + 16 * s.fr.curC.val + 1024 * s.fr.qt.isSome.toNat +
    2048 * s.fr.ready.toNat)) []

/-! ## Invariants and outputs -/

/-- R237, with the last-byte history of its clause on the timer read off the cursor (an armed timer finds the cursor
at a line's start) and the open line free of LF: every step keeps the framer's invariants, from any state that has
them, whatever the inputs. -/
def Obligations.EveryStepKeepsFramerInvariants : Prop := ∀ s t : State, FramerInv s.fr → step s = .next t →
  FramerInv t.fr

/-- R31 to R58, R78, R131, R132, R237, R263, R311, R321, and what they make together (each clause is a field of
`State.Inv`): every step keeps the machine's invariants. `HP_BUSY` is set exactly while a transfer is outstanding; an
outstanding transfer is one that a legal `BR_READ` or `BR_WRITE` posts; `TARGET` is legal; empty slots hold no
characters; a keyed encoder has its timer running; no deadline is past; `RES[0x09]` is 0; the framer's invariants
hold; and while the reset line is asserted the port is free and both timers are disarmed (that reset is a line that is
held is the model's, log 9). -/
def Obligations.EveryStepKeepsTheInvariant : Prop := ∀ s t : State, s.Inv → step s = .next t → t.Inv

/-- R310: the state after reset has the machine's invariants, those of `EveryStepKeepsTheInvariant` (the reset line is
the model's, log 9, and starts released). -/
def Obligations.ResetHasTheInvariant : Prop := State.reset.Inv

/-- R60: `ATTN` is high exactly while `READY` or some token of some encoder is set. -/
def Obligations.AttnIsAnyPendingFlag : Prop := ∀ s : State, s.attn = true ↔
  s.fr.ready = true ∨ ∃ e : Fin 2, s.enc.unit[e].fwd = true ∨ s.enc.unit[e].rev = true ∨ s.enc.unit[e].push = true
end

