-- ==== Sys2Proof/Laws/State.lean ====
section
/-!
SUPPORT. What each shared update of the state does to each field: one lemma per field per update, so that no later
proof unfolds a record update.
-/

namespace Sys2Proof.Machine

/-! ### State.respond -/

@[simp] theorem State.respond_br (s : State) (st : Status) (v : Word) (bs : List Byte) : (s.respond st v bs).br = s.br := rfl
@[simp] theorem State.respond_rds (s : State) (st : Status) (v : Word) (bs : List Byte) : (s.respond st v bs).rds = s.rds := rfl
@[simp] theorem State.respond_enc (s : State) (st : Status) (v : Word) (bs : List Byte) : (s.respond st v bs).enc = s.enc := rfl
@[simp] theorem State.respond_fr (s : State) (st : Status) (v : Word) (bs : List Byte) : (s.respond st v bs).fr = s.fr := rfl
@[simp] theorem State.respond_hpBusy (s : State) (st : Status) (v : Word) (bs : List Byte) : (s.respond st v bs).hpBusy = false := rfl
@[simp] theorem State.respond_xfer (s : State) (st : Status) (v : Word) (bs : List Byte) : (s.respond st v bs).xfer = s.xfer := rfl
@[simp] theorem State.respond_now (s : State) (st : Status) (v : Word) (bs : List Byte) : (s.respond st v bs).env.now = s.env.now := rfl
@[simp] theorem State.respond_inbox (s : State) (st : Status) (v : Word) (bs : List Byte) : (s.respond st v bs).env.inbox = s.env.inbox := rfl
@[simp] theorem State.respond_waiting (s : State) (st : Status) (v : Word) (bs : List Byte) : (s.respond st v bs).env.waiting = s.env.waiting := rfl
@[simp] theorem State.respond_out (s : State) (st : Status) (v : Word) (bs : List Byte) : (s.respond st v bs).env.out = s.env.out ++ [⟨st, v, bs⟩] := rfl
@[simp] theorem State.respond_posted (s : State) (st : Status) (v : Word) (bs : List Byte) : (s.respond st v bs).env.posted = s.env.posted := rfl
@[simp] theorem State.respond_rst (s : State) (st : Status) (v : Word) (bs : List Byte) : (s.respond st v bs).env.rst = s.env.rst := rfl

theorem State.respond_env (s : State) (st : Status) (v : Word) (bs : List Byte) :
    (s.respond st v bs).env = { s.env with out := s.env.out ++ [⟨st, v, bs⟩] } := rfl

/-! ### State.raise -/

@[simp] theorem State.raise_br (s : State) (e : Status) : (s.raise e).br = s.br := rfl
@[simp] theorem State.raise_rds (s : State) (e : Status) : (s.raise e).rds = s.rds := rfl
@[simp] theorem State.raise_enc (s : State) (e : Status) : (s.raise e).enc = s.enc := rfl
@[simp] theorem State.raise_fr (s : State) (e : Status) : (s.raise e).fr = s.fr := rfl
@[simp] theorem State.raise_hpBusy (s : State) (e : Status) : (s.raise e).hpBusy = false := rfl
@[simp] theorem State.raise_xfer (s : State) (e : Status) : (s.raise e).xfer = s.xfer := rfl
@[simp] theorem State.raise_now (s : State) (e : Status) : (s.raise e).env.now = s.env.now := rfl
@[simp] theorem State.raise_inbox (s : State) (e : Status) : (s.raise e).env.inbox = s.env.inbox := rfl
@[simp] theorem State.raise_waiting (s : State) (e : Status) : (s.raise e).env.waiting = s.env.waiting := rfl
@[simp] theorem State.raise_out (s : State) (e : Status) : (s.raise e).env.out = s.env.out ++ [⟨e, 0, []⟩] := rfl
@[simp] theorem State.raise_posted (s : State) (e : Status) : (s.raise e).env.posted = s.env.posted := rfl
@[simp] theorem State.raise_rst (s : State) (e : Status) : (s.raise e).env.rst = s.env.rst := rfl

theorem State.raise_env (s : State) (e : Status) :
    (s.raise e).env = { s.env with out := s.env.out ++ [⟨e, 0, []⟩] } := rfl

/-! ### State.post -/

@[simp] theorem State.post_br (s : State) (t : Transfer) : (s.post t).br = s.br := rfl
@[simp] theorem State.post_rds (s : State) (t : Transfer) : (s.post t).rds = s.rds := rfl
@[simp] theorem State.post_enc (s : State) (t : Transfer) : (s.post t).enc = s.enc := rfl
@[simp] theorem State.post_fr (s : State) (t : Transfer) : (s.post t).fr = s.fr := rfl
@[simp] theorem State.post_hpBusy (s : State) (t : Transfer) : (s.post t).hpBusy = true := rfl
@[simp] theorem State.post_xfer (s : State) (t : Transfer) : (s.post t).xfer = some t := rfl
@[simp] theorem State.post_now (s : State) (t : Transfer) : (s.post t).env.now = s.env.now := rfl
@[simp] theorem State.post_inbox (s : State) (t : Transfer) : (s.post t).env.inbox = s.env.inbox := rfl
@[simp] theorem State.post_waiting (s : State) (t : Transfer) : (s.post t).env.waiting = s.env.waiting := rfl
@[simp] theorem State.post_out (s : State) (t : Transfer) : (s.post t).env.out = s.env.out := rfl
@[simp] theorem State.post_rst (s : State) (t : Transfer) : (s.post t).env.rst = s.env.rst := rfl
@[simp] theorem State.post_posted (s : State) (t : Transfer) : (s.post t).env.posted = s.env.posted + 1 := rfl

theorem State.post_env (s : State) (t : Transfer) :
    (s.post t).env = { s.env with posted := s.env.posted + 1 } := rfl

/-! ### State.resetBlock -/

@[simp] theorem State.resetBlock_br (s : State) : (s.resetBlock).br = .reset := rfl
@[simp] theorem State.resetBlock_rds (s : State) : (s.resetBlock).rds = .reset := rfl
@[simp] theorem State.resetBlock_enc (s : State) : (s.resetBlock).enc = .reset := rfl
@[simp] theorem State.resetBlock_fr (s : State) : (s.resetBlock).fr = .reset := rfl
@[simp] theorem State.resetBlock_hpBusy (s : State) : (s.resetBlock).hpBusy = false := rfl
@[simp] theorem State.resetBlock_xfer (s : State) : (s.resetBlock).xfer = none := rfl
@[simp] theorem State.resetBlock_env (s : State) : (s.resetBlock).env = s.env := rfl

/-! ### State.stamped -/

@[simp] theorem State.stamped_br (s : State) (t : Nat) : (s.stamped t).br = s.br := rfl
@[simp] theorem State.stamped_rds (s : State) (t : Nat) : (s.stamped t).rds = s.rds := rfl
@[simp] theorem State.stamped_enc (s : State) (t : Nat) : (s.stamped t).enc = s.enc := rfl
@[simp] theorem State.stamped_fr (s : State) (t : Nat) : (s.stamped t).fr = s.fr := rfl
@[simp] theorem State.stamped_hpBusy (s : State) (t : Nat) : (s.stamped t).hpBusy = s.hpBusy := rfl
@[simp] theorem State.stamped_xfer (s : State) (t : Nat) : (s.stamped t).xfer = s.xfer := rfl
@[simp] theorem State.stamped_now (s : State) (t : Nat) : (s.stamped t).env.now = max s.env.now t := rfl
@[simp] theorem State.stamped_inbox (s : State) (t : Nat) : (s.stamped t).env.inbox = s.env.inbox := rfl
@[simp] theorem State.stamped_waiting (s : State) (t : Nat) : (s.stamped t).env.waiting = s.env.waiting := rfl
@[simp] theorem State.stamped_out (s : State) (t : Nat) : (s.stamped t).env.out = s.env.out := rfl
@[simp] theorem State.stamped_posted (s : State) (t : Nat) : (s.stamped t).env.posted = s.env.posted := rfl
@[simp] theorem State.stamped_rst (s : State) (t : Nat) : (s.stamped t).env.rst = s.env.rst := rfl

theorem State.stamped_env (s : State) (t : Nat) : (s.stamped t).env = { s.env with now := max s.env.now t } := rfl

/-- A stamp that is not past is the new time. -/
theorem State.stamped_of_le (s : State) (t : Nat) (h : s.env.now ≤ t) :
    s.stamped t = { s with env := { s.env with now := t } } := by
  simp [State.stamped, Nat.max_eq_right h]

/-! ### The units' updates -/

@[simp] theorem EncUnit.put_gt (u : EncUnit) (e : Fin 2) (x : Encoder) : (u.put e x).gt = u.gt := rfl
@[simp] theorem EncUnit.put_self (u : EncUnit) (e : Fin 2) (x : Encoder) : (u.put e x).unit[e.val] = x := by
  simp [EncUnit.put]
theorem EncUnit.put_other (u : EncUnit) (e e' : Fin 2) (x : Encoder) (h : e' ≠ e) :
    (u.put e x).unit[e'.val] = u.unit[e'.val] := by
  have : e.val ≠ e'.val := fun k => h (Fin.ext k.symm)
  simp [EncUnit.put, this]
@[simp] theorem EncUnit.expire_gt (u : EncUnit) : u.expire.gt = none := rfl
@[simp] theorem EncUnit.expire_unit (u : EncUnit) (e : Fin 2) :
    u.expire.unit[e.val] = { u.unit[e.val] with st := .idle } := by
  match e with
  | 0 => rfl
  | 1 => rfl

@[simp] theorem Rds.psAssemble_grp (r : Rds) (i : BitVec 5) (d : Word) : (r.psAssemble i d).grp = r.grp := rfl
@[simp] theorem Rds.psAssemble_rtc (r : Rds) (i : BitVec 5) (d : Word) : (r.psAssemble i d).rtc = r.rtc := rfl
@[simp] theorem Rds.psAssemble_rtq (r : Rds) (i : BitVec 5) (d : Word) : (r.psAssemble i d).rtq = r.rtq := rfl
@[simp] theorem Rds.psAssemble_rtp (r : Rds) (i : BitVec 5) (d : Word) : (r.psAssemble i d).rtp = r.rtp := rfl
@[simp] theorem Rds.psAssemble_target (r : Rds) (i : BitVec 5) (d : Word) :
    (r.psAssemble i d).target = r.target := rfl

@[simp] theorem Rds.clear_grp (r : Rds) : r.clear.grp = r.grp := rfl
@[simp] theorem Rds.clear_ps (r : Rds) : r.clear.ps = Vector.replicate 8 0 := rfl
@[simp] theorem Rds.clear_rtc (r : Rds) : r.clear.rtc = Vector.replicate 16 (Vector.replicate 4 0) := rfl
@[simp] theorem Rds.clear_rtq (r : Rds) : r.clear.rtq = Vector.replicate 16 0 := rfl
@[simp] theorem Rds.clear_rtp (r : Rds) : r.clear.rtp = false := rfl
@[simp] theorem Rds.clear_target (r : Rds) : r.clear.target = r.target := rfl

@[simp] theorem Framer.store_curL (f : Framer) (b : Byte) (h) : (f.store b h).curL = f.curL := rfl
@[simp] theorem Framer.store_curC (f : Framer) (b : Byte) (h) : (f.store b h).curC = f.curC := rfl
@[simp] theorem Framer.store_ready (f : Framer) (b : Byte) (h) : (f.store b h).ready = f.ready := rfl
@[simp] theorem Framer.store_qt (f : Framer) (b : Byte) (h) : (f.store b h).qt = f.qt := rfl
@[simp] theorem Framer.clear_line (f : Framer) : f.clear.line = Vector.replicate 10 (Vector.replicate 50 0) := rfl
@[simp] theorem Framer.clear_len (f : Framer) : f.clear.len = Vector.replicate 10 0 := rfl
@[simp] theorem Framer.clear_curL (f : Framer) : f.clear.curL = 0 := rfl
@[simp] theorem Framer.clear_curC (f : Framer) : f.clear.curC = 0 := rfl
@[simp] theorem Framer.clear_ready (f : Framer) : f.clear.ready = f.ready := rfl
@[simp] theorem Framer.clear_qt (f : Framer) : f.clear.qt = f.qt := rfl

end Sys2Proof.Machine
end

