-- ==== Sys2Proof/Laws/Agents.lean ====
section
/-!
SUPPORT. Which step comes next: the laws of `State.activity`, and the inversion of a step, said once.
-/

namespace Sys2Proof.Machine

/-- With nothing due by `t` no deadline is reached before a step stamped `t`. -/
theorem State.firing_of_nothingDue (s : State) (t : Nat) (ht : s.pendingStamp = some t) (h : s.nothingDueBy t) :
    s.firing = none := by
  obtain ⟨hg, hq⟩ := h
  have key : ∀ o : Option Nat, (∀ d, o = some d → t < d) → o.filter (reached (some t)) = none := by
    intro o ho
    cases o with
    | none => rfl
    | some d => simp [Option.filter, reached, Nat.not_le.mpr (ho d rfl)]
  simp [State.firing, ht, key _ hg, key _ hq]

/-- The oldest input is pending when no command is there to be accepted. -/
theorem State.pending_deliver (s : State) (i : Input) (rest : List Input)
    (hp : s.hpBusy = true ∨ s.env.rst = true ∨ s.env.waiting = []) (hi : s.env.inbox = i :: rest) :
    s.pending = .deliver i rest := by
  have hfree : s.portFree = false ∨ s.env.waiting = [] := by
    rcases hp with h | h | h
    · exact .inl (by simp [State.portFree, h])
    · exact .inl (by simp [State.portFree, h])
    · exact .inr h
  rcases hfree with h | h
  · simp [State.pending, h, hi]
  · unfold State.pending
    rw [h, hi]
    cases s.portFree <;> rfl

/-- The step takes the oldest input when no timer is due by its stamp. -/
theorem State.activity_deliver (s : State) (i : Input) (rest : List Input)
    (hp : s.hpBusy = true ∨ s.env.rst = true ∨ s.env.waiting = []) (hi : s.env.inbox = i :: rest)
    (h : s.nothingDueBy (max s.env.now i.time)) : s.activity = .deliver i rest := by
  have hd := s.pending_deliver i rest hp hi
  have hs : s.pendingStamp = some (max s.env.now i.time) := by simp [State.pendingStamp, hd]
  simp [State.activity, s.firing_of_nothingDue _ hs h, hd]

/-- The step accepts the command that waits longest when the port is free and no timer is due now. -/
theorem State.activity_accept (s : State) (w : CmdWord) (rest : List CmdWord) (hb : s.hpBusy = false)
    (hr : s.env.rst = false) (hw : s.env.waiting = w :: rest) (h : s.nothingDueBy s.env.now) :
    s.activity = .accept w rest := by
  have hp : s.pending = .accept w rest := by simp [State.pending, State.portFree, hb, hr, hw]
  have hs : s.pendingStamp = some s.env.now := by simp [State.pendingStamp, hp]
  simp [State.activity, s.firing_of_nothingDue _ hs h, hp]

/-- The environment after a step that takes the oldest input. -/
theorem State.taken_eq (s : State) (t : Nat) (rest : List Input) :
    ({ s with env := { s.env with inbox := rest } } : State).stamped t =
      { s with env := { s.env with inbox := rest, now := max s.env.now t } } := rfl

/-- A step that takes the oldest input is the delivery of that input, stamped. -/
theorem step_deliver (s : State) (i : Input) (rest : List Input)
    (hp : s.hpBusy = true ∨ s.env.rst = true ∨ s.env.waiting = []) (hi : s.env.inbox = i :: rest)
    (h : s.nothingDueBy (max s.env.now i.time)) :
    step s = deliver i.item { s with env := { s.env with inbox := rest, now := max s.env.now i.time } } := by
  simp [step, advance, s.activity_deliver i rest hp hi h, State.taken_eq]

/-- A timer that fires is armed with that deadline, no later than any other armed timer's, and due. -/
theorem State.firing_cases (s : State) (t : TimerId) (d : Nat) (h : s.firing = some (t, d)) :
    (t = .glitch ∧ s.enc.gt = some d ∧ ∀ d', s.fr.qt = some d' → d ≤ d') ∨
    (t = .quiet ∧ s.fr.qt = some d ∧ ∀ d', s.enc.gt = some d' → d ≤ d') := by
  have key : ∀ {o : Option Nat} {d}, o.filter (reached s.pendingStamp) = some d →
      o = some d ∧ reached s.pendingStamp d = true := by
    intro o d ho
    exact Option.filter_eq_some_iff.mp ho
  have nokey : ∀ {o : Option Nat}, o.filter (reached s.pendingStamp) = none → ∀ d', o = some d' →
      reached s.pendingStamp d' = false := by
    intro o ho d' hd'
    simpa using Option.filter_eq_none_iff.mp ho d' hd'
  have mono : ∀ {d d'}, reached s.pendingStamp d = true → reached s.pendingStamp d' = false → d ≤ d' := by
    intro d d' h1 h2
    unfold reached at h1 h2
    split at h1
    · simp_all
    · simp_all
      omega
  unfold State.firing at h
  split at h
  · cases h
  · rename_i dg hg hq
    cases h
    exact .inl ⟨rfl, (key hg).1, fun d' hd' => mono (key hg).2 (nokey hq d' hd')⟩
  · rename_i dq hg hq
    cases h
    exact .inr ⟨rfl, (key hq).1, fun d' hd' => mono (key hq).2 (nokey hg d' hd')⟩
  · rename_i dg dq hg hq
    have hgq : ∀ d', s.fr.qt = some d' → d' = dq := fun d' h' => by
      rw [(key hq).1] at h'
      exact (Option.some.inj h').symm
    have hqg : ∀ d', s.enc.gt = some d' → d' = dg := fun d' h' => by
      rw [(key hg).1] at h'
      exact (Option.some.inj h').symm
    have glitch : dg ≤ dq → (s.enc.gt = some dg ∧ ∀ d', s.fr.qt = some d' → dg ≤ d') := fun hle =>
      ⟨(key hg).1, fun d' h' => by rw [hgq d' h']; exact hle⟩
    have quiet : dq ≤ dg → (s.fr.qt = some dq ∧ ∀ d', s.enc.gt = some d' → dq ≤ d') := fun hle =>
      ⟨(key hq).1, fun d' h' => by rw [hqg d' h']; exact hle⟩
    split at h
    · cases h
      exact .inl ⟨rfl, glitch (by omega)⟩
    · split at h
      · cases h
        exact .inr ⟨rfl, quiet (by omega)⟩
      · split at h
        · cases h
          exact .inr ⟨rfl, quiet (by omega)⟩
        · cases h
          exact .inl ⟨rfl, glitch (by omega)⟩

/-- Everything one step can be (R83, R263): nothing to do; a due timer fires; a waiting command is accepted; the oldest
input is taken, no deadline lying at or before its stamp. -/
theorem step_cases (s : State) :
    (s.enc.gt = none ∧ s.fr.qt = none ∧ s.env.inbox = [] ∧ (s.portFree = false ∨ s.env.waiting = []) ∧
      step s = .next s) ∨
    (∃ d, s.enc.gt = some d ∧ (∀ d', s.fr.qt = some d' → d ≤ d') ∧ step s = runEvent 0x3B000000 (s.stamped d)) ∨
    (∃ d, s.fr.qt = some d ∧ (∀ d', s.enc.gt = some d' → d ≤ d') ∧ step s = runEvent 0x49000000 (s.stamped d)) ∨
    (∃ w rest, s.hpBusy = false ∧ s.env.rst = false ∧ s.env.waiting = w :: rest ∧ s.nothingDueBy s.env.now ∧
      step s = runCommand w { s with env := { s.env with waiting := rest } }) ∨
    (∃ i rest, (s.hpBusy = true ∨ s.env.rst = true ∨ s.env.waiting = []) ∧ s.env.inbox = i :: rest ∧
      s.nothingDueBy (max s.env.now i.time) ∧
      step s = deliver i.item { s with env := { s.env with inbox := rest, now := max s.env.now i.time } }) := by
  have notDue : ∀ t, s.pendingStamp = some t → s.firing = none → s.nothingDueBy t := by
    intro t ht hf
    have key : ∀ o : Option Nat, o.filter (reached (some t)) = none → ∀ d, o = some d → t < d := by
      intro o ho d hd
      simpa [reached] using Option.filter_eq_none_iff.mp ho d hd
    unfold State.firing at hf
    rw [ht] at hf
    split at hf
    · rename_i hg hq
      exact ⟨key _ hg, key _ hq⟩
    · cases hf
    · cases hf
    · repeat' split at hf
      all_goals cases hf
  cases hf : s.firing with
  | some p =>
    obtain ⟨t, d⟩ := p
    have ha : s.activity = .fire t d := by simp [State.activity, hf]
    have hs : step s = runEvent t.word (s.stamped d) := by simp [step, advance, ha]
    rcases s.firing_cases t d hf with ⟨rfl, hg, hle⟩ | ⟨rfl, hq, hle⟩
    · exact .inr (.inl ⟨d, hg, hle, hs⟩)
    · exact .inr (.inr (.inl ⟨d, hq, hle, hs⟩))
  | none =>
    have ha : s.activity = s.pending := by simp [State.activity, hf]
    cases hp : s.pending with
    | idle =>
      have hstamp : s.pendingStamp = none := by simp only [State.pendingStamp, hp]
      have key : ∀ o : Option Nat, o.filter (reached none) = o := fun o => by cases o <;> rfl
      have hnone : s.enc.gt = none ∧ s.fr.qt = none := by
        unfold State.firing at hf
        rw [hstamp, key, key] at hf
        split at hf
        · rename_i hg hq
          exact ⟨hg, hq⟩
        · cases hf
        · cases hf
        · repeat' split at hf
          all_goals cases hf
      have hi : s.env.inbox = [] ∧ (s.portFree = false ∨ s.env.waiting = []) := by
        unfold State.pending at hp
        split at hp
        · cases hp
        · cases hp
        · rename_i hib hno
          refine ⟨hib, ?_⟩
          cases hfree : s.portFree with
          | false => exact .inl rfl
          | true =>
            right
            cases hwt : s.env.waiting with
            | nil => rfl
            | cons w ws => exact absurd hwt (hno w ws hfree)
      exact .inl ⟨hnone.1, hnone.2, hi.1, hi.2, by simp [step, advance, ha, hp]⟩
    | fire t d =>
      exfalso
      unfold State.pending at hp
      split at hp <;> cases hp
    | accept w rest =>
      refine .inr (.inr (.inr (.inl ⟨w, rest, ?_⟩)))
      have hst := notDue s.env.now (by simp only [State.pendingStamp, hp]) hf
      have hw : s.portFree = true ∧ s.env.waiting = w :: rest := by
        unfold State.pending at hp
        split at hp
        · rename_i h1 h2
          cases hp
          exact ⟨h1, h2⟩
        · cases hp
        · cases hp
      have hpf := hw.1
      simp only [State.portFree, Bool.and_eq_true, Bool.not_eq_true'] at hpf
      exact ⟨hpf.1, hpf.2, hw.2, hst, by simp [step, advance, ha, hp]⟩
    | deliver i rest =>
      refine .inr (.inr (.inr (.inr ⟨i, rest, ?_⟩)))
      have hst := notDue (max s.env.now i.time) (by simp only [State.pendingStamp, hp]) hf
      have hi : (s.portFree = false ∨ s.env.waiting = []) ∧ s.env.inbox = i :: rest := by
        unfold State.pending at hp
        split at hp
        · cases hp
        · rename_i hib hno
          cases hp
          refine ⟨?_, hib⟩
          cases hfree : s.portFree with
          | false => exact .inl rfl
          | true =>
            right
            cases hwt : s.env.waiting with
            | nil => rfl
            | cons w ws => exact absurd hwt (hno w ws hfree)
        · cases hp
      refine ⟨?_, hi.2, hst, by simp [step, advance, ha, hp, State.taken_eq]⟩
      rcases hi.1 with h | h
      · simp only [State.portFree, Bool.and_eq_false_iff, Bool.not_eq_false'] at h
        exact h.elim .inl fun k => .inr (.inl k)
      · exact .inr (.inr h)

/-! ### Words and inputs -/

/-- A word that decodes to a command runs it, with the port busy (R105, R260). -/
theorem runCommand_of_decode (s : State) (w : CmdWord) (i : Instr) (h : decode w = some i) (hc : i.isEvent = false) :
    runCommand w s = exec i { s with hpBusy := true } := by
  simp [runCommand, decodeCommand, h, hc, Option.filter]

/-- A word that decodes to an event runs it (R105). -/
theorem runEvent_of_decode (s : State) (w : CmdWord) (i : Instr) (h : decode w = some i) (he : i.isEvent = true) :
    runEvent w s = exec i s := by
  simp [runEvent, decodeEvent, h, he, Option.filter]

/-- Everything a word on the host port can do (R105, R281). -/
theorem runCommand_cases (s : State) (w : CmdWord) :
    (∃ i, decode w = some i ∧ i.isEvent = false ∧ runCommand w s = exec i { s with hpBusy := true }) ∨
    ((∀ i, decode w = some i → i.isEvent = true) ∧
      runCommand w s = .next ({ s with hpBusy := true }.raise .illegal)) := by
  cases hd : decode w with
  | none => exact .inr ⟨fun _ h => (nomatch h), by simp [runCommand, decodeCommand, hd]⟩
  | some i =>
    cases hi : i.isEvent with
    | false => exact .inl ⟨i, rfl, hi, runCommand_of_decode s w i hd hi⟩
    | true =>
      refine .inr ⟨fun j h => ?_, by simp [runCommand, decodeCommand, hd, hi, Option.filter]⟩
      cases h
      exact hi

/-- Everything a word on the event channel can do (R105, R109). -/
theorem runEvent_cases (s : State) (w : CmdWord) :
    (∃ i, decode w = some i ∧ i.isEvent = true ∧ runEvent w s = exec i s) ∨
    ((∀ i, decode w = some i → i.isEvent = false) ∧ runEvent w s = .refused (.badEventWord w)) := by
  cases hd : decode w with
  | none => exact .inr ⟨fun _ h => (nomatch h), by simp [runEvent, decodeEvent, hd]⟩
  | some i =>
    cases hi : i.isEvent with
    | true => exact .inl ⟨i, rfl, hi, runEvent_of_decode s w i hd hi⟩
    | false =>
      refine .inr ⟨fun j h => ?_, by simp [runEvent, decodeEvent, hd, hi, Option.filter]⟩
      cases h
      exact hi

/-- An expiry word runs its expiry. -/
theorem runEvent_glitch (s : State) : runEvent 0x3B000000 s = exec .evGlitchExpire s := rfl
theorem runEvent_quiet (s : State) : runEvent 0x49000000 s = exec .evQuietExpire s := rfl

/-- A rising edge outside reset runs the event of its pin and encoder (R265). -/
theorem deliver_edge_a (s : State) (e : Fin 2) (h : s.env.rst = false) :
    deliver (.edge .a e true) s = exec (.evPina (BitVec.ofNat 8 e.val)) s := by
  match e with
  | 0 => simp only [deliver, edgeWord, arrive, h, if_true, if_false, Bool.false_eq_true]; rfl
  | 1 => simp only [deliver, edgeWord, arrive, h, if_true, if_false, Bool.false_eq_true]; rfl

theorem deliver_edge_b (s : State) (e : Fin 2) (h : s.env.rst = false) :
    deliver (.edge .b e true) s = exec (.evPinb (BitVec.ofNat 8 e.val)) s := by
  match e with
  | 0 => simp only [deliver, edgeWord, arrive, h, if_true, if_false, Bool.false_eq_true]; rfl
  | 1 => simp only [deliver, edgeWord, arrive, h, if_true, if_false, Bool.false_eq_true]; rfl

theorem deliver_edge_push (s : State) (e : Fin 2) (h : s.env.rst = false) :
    deliver (.edge .push e true) s = exec (.evPush (BitVec.ofNat 8 e.val)) s := by
  match e with
  | 0 => simp only [deliver, edgeWord, arrive, h, if_true, if_false, Bool.false_eq_true]; rfl
  | 1 => simp only [deliver, edgeWord, arrive, h, if_true, if_false, Bool.false_eq_true]; rfl

/-- Two steps are the second step from the state after the first. -/
theorem core_run_two (s t : State) (h : step s = .next t) : core.run 2 s = step t := by
  have h1 : core.run 2 s = core.run 1 t := by
    have hs : core.step s = .next t := h
    simp only [Host.Core.run, hs]
  have h2 : ∀ u, core.step t = u → core.run 1 t = u := by
    intro u hu
    cases u <;> simp only [Host.Core.run, hu]
  rw [h1]
  exact h2 _ rfl

end Sys2Proof.Machine
end

