-- ==== Sys2Proof/Laws/Buffers.lean ====
section
/-!
SUPPORT. The laws of the bounded buffer accesses `rd` and `wr`, of byte order, and of the result buffer of a read.
-/

namespace Sys2Proof.Machine

variable {α : Type} {n : Nat}

/-- Inside its bounds a read is the element. -/
theorem rd_of_lt (d : α) (v : Vector α n) (i : Nat) (h : i < n) : rd d v i = v[i] := by simp [rd, h]

@[simp] theorem rd_fin (d : α) (v : Vector α n) (i : Fin n) : rd d v i.val = v[i.val] := by simp [rd]

/-- A read after a write: the written element at its index, the old one elsewhere. -/
theorem wr_get (v : Vector α n) (i : Nat) (x : α) (j : Nat) (h : j < n) :
    (wr v i x)[j] = if j = i then x else v[j] := by
  unfold wr
  split
  · rw [Vector.getElem_set]
    exact if_congr eq_comm rfl rfl
  · have : j ≠ i := by omega
    simp [this]

@[simp] theorem wordOfBytes_hi_lo (w : Word) : wordOfBytes (hiByte w) (loByte w) = w := by
  unfold wordOfBytes hiByte loByte
  exact BitVec.extractLsb'_append_extractLsb'_eq_extractLsb' (by rfl) |>.trans (by simp)

theorem hiByte_toNat (w : Word) : (hiByte w).toNat = w.toNat / 256 := by
  have := w.isLt
  simp only [hiByte, BitVec.extractLsb'_toNat, Nat.shiftRight_eq_div_pow]
  omega

theorem loByte_toNat (w : Word) : (loByte w).toNat = w.toNat % 256 := by
  simp [loByte, BitVec.extractLsb'_toNat]

theorem readWords_le (count : Nat) : readWords count ≤ 15 := by unfold readWords; omega

/-- Up to 9 registers the read runs through the wrap portion (R131, R136). -/
theorem readWords_low (count : Nat) (h : 1 ≤ count) (h' : count ≤ 9) : readWords count = count + 6 := by
  unfold readWords; omega

/-- From 10 registers on it does not reach the wrap (R131, R136). -/
theorem readWords_high (count : Nat) (h : 10 ≤ count) (h' : count ≤ 16) : readWords count = count - 10 := by
  unfold readWords; omega

/-- The loop of R131 over the first `m` wire words: register `a` is the wire word `(a + 6) mod 16` when the loop passed
it and keeps it, and 0 otherwise. -/
theorem resLoop_get (count : Nat) (data : List Byte) (m : Nat) (hm : m ≤ 15) (a : Nat) (ha : a < 16) :
    ((List.range m).foldl
      (fun r k => if count ≤ 9 ∧ 0x0A ≤ wireReg k then r else wr r (wireReg k) (wireWord data k))
      (Vector.replicate 16 (0 : Word)))[a] =
    if (a + 6) % 16 < m ∧ ¬ (count ≤ 9 ∧ 10 ≤ a) then wireWord data ((a + 6) % 16) else 0 := by
  induction m with
  | zero => simp
  | succ m ih =>
    have hreg : wireReg m = (10 + m) % 16 := rfl
    rw [List.range_succ, List.foldl_append]
    simp only [List.foldl_cons, List.foldl_nil]
    split
    · rename_i hk
      rw [ih (by omega)]
      refine if_congr ?_ rfl rfl
      omega
    · rename_i hk
      rw [wr_get _ _ _ _ ha, ih (by omega)]
      by_cases haw : a = wireReg m
      · have hkm : (a + 6) % 16 = m := by omega
        have hcond : (a + 6) % 16 < m + 1 ∧ ¬ (count ≤ 9 ∧ 10 ≤ a) := ⟨by omega, by rw [haw]; exact hk⟩
        rw [if_pos haw, if_pos hcond, hkm]
      · rw [if_neg haw]
        refine if_congr ?_ rfl rfl
        omega

/-- What a read leaves in `RES`, register by register (R131, R136). -/
theorem newRes_get (count : Nat) (data : List Byte) (a : Nat) (ha : a < 16) :
    (newRes count data)[a] =
    if (a + 6) % 16 < readWords count ∧ ¬ (count ≤ 9 ∧ 10 ≤ a) then wireWord data ((a + 6) % 16) else 0 :=
  resLoop_get count data (readWords count) (readWords_le count) a ha

/-- The bytes of a bus write: two for each word, the high one first (R73). -/
theorem bytesOfWords_length (ws : List Word) : (bytesOfWords ws).length = 2 * ws.length := by
  induction ws with
  | nil => rfl
  | cons w ws ih => simp only [bytesOfWords, List.flatMap_cons, List.length_append] at *; simp [ih]; omega

theorem bytesOfWords_wordAt (ws : List Word) (k : Nat) (h : k < ws.length) : wordAt (bytesOfWords ws) k = some ws[k] := by
  induction ws generalizing k with
  | nil => simp at h
  | cons w ws ih =>
    match k with
    | 0 => exact congrArg some (wordOfBytes_hi_lo w)
    | k + 1 =>
      have hs : bytesOfWords (w :: ws) = hiByte w :: loByte w :: bytesOfWords ws := rfl
      have := ih k (by simpa using h)
      simp only [List.getElem_cons_succ, ← this]
      simp only [wordAt, hs, show 2 * (k + 1) = 2 * k + 1 + 1 by omega, List.getElem?_cons_succ]

theorem writeData_length (wimg : Vector Word 16) (ub : Nat) : (writeData wimg ub).length = 2 * (ub - 1) := by
  simp [writeData, bytesOfWords_length]

end Sys2Proof.Machine
end

