-- ==== Sys2Proof/Laws/Decode.lean ====
section
/-!
SUPPORT. The fields of a packed word, and the opcode map's rows kept apart by their top bytes. The round trip itself is
a statement for the provers.
-/

namespace Sys2Proof

@[simp] theorem opcodeOf_pack (o a : BitVec 8) (d : Word) : opcodeOf (pack o a d) = o := by
  apply BitVec.eq_of_getLsbD_eq
  intro i hi
  simp only [opcodeOf, pack, BitVec.getLsbD_extractLsb', BitVec.getLsbD_append]
  have h1 : ¬ 24 + i < 16 := by omega
  have h2 : ¬ 24 + i - 16 < 8 := by omega
  simp [h1, h2, hi, show 24 + i - 16 - 8 = i by omega]

@[simp] theorem argOf_pack (o a : BitVec 8) (d : Word) : argOf (pack o a d) = a := by
  apply BitVec.eq_of_getLsbD_eq
  intro i hi
  simp only [argOf, pack, BitVec.getLsbD_extractLsb', BitVec.getLsbD_append]
  have h1 : ¬ 16 + i < 16 := by omega
  simp [h1, hi, show 16 + i - 16 = i by omega]

@[simp] theorem dataOf_pack (o a : BitVec 8) (d : Word) : dataOf (pack o a d) = d := by
  apply BitVec.eq_of_getLsbD_eq
  intro i hi
  simp only [dataOf, pack, BitVec.getLsbD_extractLsb', BitVec.getLsbD_append]
  simp [hi]

/-- A word is the packing of its fields (R100). -/
theorem pack_fields (w : CmdWord) : pack (opcodeOf w) (argOf w) (dataOf w) = w := by
  apply BitVec.eq_of_getLsbD_eq
  intro i hi
  simp only [dataOf, opcodeOf, argOf, pack, BitVec.getLsbD_extractLsb', BitVec.getLsbD_append]
  by_cases h1 : i < 16
  · simp [h1]
  · by_cases h2 : i - 16 < 8
    · simp [h1, h2, show 16 + (i - 16) = i by omega]
    · simp [h1, h2, show 24 + (i - 16 - 8) = i by omega, show i - 16 - 8 < 8 by omega]

/-- The class bit is the opcode byte's bit 3 (R102). -/
@[simp] theorem classBit_pack (o a : BitVec 8) (d : Word) : classBit (pack o a d) = o.getLsbD 3 := by
  simp only [classBit, pack, BitVec.getLsbD_append]
  rfl

/-- The unit field of a word is the high half of its opcode byte (R100). -/
@[simp] theorem unit_pack (o a : BitVec 8) (d : Word) : (pack o a d).extractLsb' 28 4 = o.extractLsb' 4 4 := by
  apply BitVec.eq_of_getLsbD_eq
  intro i hi
  simp only [pack, BitVec.getLsbD_extractLsb', BitVec.getLsbD_append]
  have h1 : ¬ 28 + i < 16 := by omega
  have h2 : ¬ 28 + i - 16 < 8 := by omega
  simp [h1, h2, hi, show 28 + i - 16 - 8 = 4 + i by omega]

@[simp] theorem whenZero_true (i : Instr) : whenZero true i = some i := rfl

theorem whenZero_eq_some (b : Bool) (i j : Instr) : whenZero b i = some j ↔ b = true ∧ i = j := by
  cases b <;> simp [whenZero]

/-- Two words that one row selects have the row's opcode byte: every mask covers bits [31:24] (R105). -/
theorem opcodeMap_masks_top : ∀ r ∈ opcodeMap, r.mask.extractLsb' 24 8 = 0xFF := by decide

/-- The rows' opcode bytes are all distinct (R105). -/
theorem opcodeMap_opcodes_distinct : (opcodeMap.map fun r => opcodeOf r.bits).Pairwise (· ≠ ·) := by decide

end Sys2Proof
end

