-- ==== Sys2Proof/Laws/Units.lean ====
section
/-!
SUPPORT. One lemma per shared operation of the units, saying once everything it can do: the bus's answers, the operand
forms, the vote, the encoder edges and the received byte.
-/

namespace Sys2Proof.Machine

/-! ### Operand forms -/

theorem encIndex_some (enc : BitVec 8) (e : Fin 2) : encIndex enc = some e ↔ enc.toNat = e.val := by
  unfold encIndex
  split
  · simp [Fin.ext_iff]
  · have := e.isLt
    simp
    omega

theorem encIndex_none (enc : BitVec 8) : encIndex enc = none ↔ 2 ≤ enc.toNat := by
  unfold encIndex
  split
  · simp
    omega
  · simp
    omega

@[simp] theorem encIndex_ofNat (e : Fin 2) : encIndex (BitVec.ofNat 8 e.val) = some e := by
  match e with
  | 0 => rfl
  | 1 => rfl

@[simp] theorem encIndex_zero : encIndex 0 = some 0 := rfl
@[simp] theorem encIndex_one : encIndex 1 = some 1 := rfl

theorem blockGtype_toNat (b : Word) : (blockGtype b).toNat = b.toNat / 4096 := by
  have := b.isLt
  simp only [blockGtype, BitVec.extractLsb'_toNat, Nat.shiftRight_eq_div_pow]
  omega

theorem blockIdx_toNat (b : Word) : (blockIdx b).toNat = b.toNat % 32 := by
  simp [blockIdx, BitVec.extractLsb'_toNat]

theorem idxSlot_toNat (i : BitVec 5) : (idxSlot i).toNat = i.toNat % 16 := by
  simp [idxSlot, BitVec.extractLsb'_toNat]

theorem idxParity_blockIdx (b : Word) : idxParity (blockIdx b) = b.getLsbD 4 := by
  simp [idxParity, blockIdx]

/-! ### The bus -/

/-- The answer that carries the latest transfer's number is the answer to what is outstanding (R261). -/
@[simp] theorem State.answering_posted (s : State) : s.answering s.env.posted = s.xfer := by simp [State.answering]

/-- An answer to an earlier transfer finds nothing, and so does one when nothing is outstanding (R311). -/
theorem State.answering_none (s : State) (nr : Nat) (h : s.xfer = none ∨ nr ≠ s.env.posted) :
    s.answering nr = none := by
  unfold State.answering
  split
  · rename_i hn
    exact h.elim id fun k => absurd hn k
  · rfl

/-- Everything an answer to a read can do (R131, R283). -/
theorem busData_read (s : State) (nr dev count n : Nat) (data : List Byte)
    (h : s.answering nr = some (.read dev count n)) :
    busData nr data s = if data.length = n then storeRead count data { s with xfer := none }
      else { s with xfer := none }.raise .busError := by
  simp [busData, h]

/-- Data that answers no outstanding read is ignored (R311). -/
theorem busData_ignored (s : State) (nr : Nat) (data : List Byte)
    (h : ∀ dev count n, s.answering nr ≠ some (.read dev count n)) : busData nr data s = s := by
  unfold busData
  split
  · rename_i hx
    exact absurd hx (h _ _ _)
  · rfl

/-- Everything an answer to a write can do (R132, R283). -/
theorem busCount_write (s : State) (nr dev m : Nat) (data : List Byte)
    (h : s.answering nr = some (.write dev data)) :
    busCount nr m s =
      if m = data.length then { s with xfer := none }.respond .ok (BitVec.ofNat 16 (data.length / 2)) []
      else { s with xfer := none }.raise .busError := by
  simp [busCount, h]

/-- A count that answers no outstanding write is ignored (R311). -/
theorem busCount_ignored (s : State) (nr m : Nat) (h : ∀ dev data, s.answering nr ≠ some (.write dev data)) :
    busCount nr m s = s := by
  unfold busCount
  split
  · rename_i hx
    exact absurd hx (h _ _)
  · rfl

/-! ### The vote -/

/-- Everything a vote can do (R165): a slot that already holds the characters gains 1 while below the target; any other
slot, and an empty one, takes them with quality 1. -/
theorem Rds.vote_cases (r : Rds) (slot : Fin 16) (cs : Vector Byte 4) :
    (r.rtq[slot.val] ≠ 0 ∧ r.rtc[slot.val] = cs ∧ r.rtq[slot.val] < r.target ∧
      r.vote slot cs = { r with rtq := r.rtq.set slot (r.rtq[slot.val] + 1) }) ∨
    (r.rtq[slot.val] ≠ 0 ∧ r.rtc[slot.val] = cs ∧ ¬ r.rtq[slot.val] < r.target ∧ r.vote slot cs = r) ∨
    ((r.rtq[slot.val] = 0 ∨ r.rtc[slot.val] ≠ cs) ∧
      r.vote slot cs = { r with rtc := r.rtc.set slot cs, rtq := r.rtq.set slot 1 }) := by
  by_cases hq : r.rtq[slot.val] = 0
  · exact .inr (.inr ⟨.inl hq, by simp only [Rds.vote, Fin.getElem_fin, hq, if_true]⟩)
  · by_cases hc : r.rtc[slot.val] = cs
    · by_cases ht : r.rtq[slot.val] < r.target
      · exact .inl ⟨hq, hc, ht, by simp only [Rds.vote, Fin.getElem_fin, hq, hc, ht, if_true, if_false]⟩
      · exact .inr (.inl ⟨hq, hc, ht, by simp only [Rds.vote, Fin.getElem_fin, hq, hc, ht, if_true, if_false]⟩)
    · exact .inr (.inr ⟨.inr hc, by simp only [Rds.vote, Fin.getElem_fin, hq, hc, if_false]⟩)

@[simp] theorem Rds.vote_grp (r : Rds) (slot : Fin 16) (cs : Vector Byte 4) : (r.vote slot cs).grp = r.grp := by
  rcases r.vote_cases slot cs with ⟨_, _, _, h⟩ | ⟨_, _, _, h⟩ | ⟨_, h⟩ <;> simp [h]

@[simp] theorem Rds.vote_ps (r : Rds) (slot : Fin 16) (cs : Vector Byte 4) : (r.vote slot cs).ps = r.ps := by
  rcases r.vote_cases slot cs with ⟨_, _, _, h⟩ | ⟨_, _, _, h⟩ | ⟨_, h⟩ <;> simp [h]

@[simp] theorem Rds.vote_rtp (r : Rds) (slot : Fin 16) (cs : Vector Byte 4) : (r.vote slot cs).rtp = r.rtp := by
  rcases r.vote_cases slot cs with ⟨_, _, _, h⟩ | ⟨_, _, _, h⟩ | ⟨_, h⟩ <;> simp [h]

@[simp] theorem Rds.vote_target (r : Rds) (slot : Fin 16) (cs : Vector Byte 4) :
    (r.vote slot cs).target = r.target := by
  rcases r.vote_cases slot cs with ⟨_, _, _, h⟩ | ⟨_, _, _, h⟩ | ⟨_, h⟩ <;> simp [h]

/-- Whatever the vote, the slot holds the characters voted (R165). -/
@[simp] theorem Rds.vote_rtc_self (r : Rds) (slot : Fin 16) (cs : Vector Byte 4) :
    (r.vote slot cs).rtc[slot.val] = cs := by
  rcases r.vote_cases slot cs with ⟨_, hc, _, h⟩ | ⟨_, hc, _, h⟩ | ⟨_, h⟩
  · simp [h, hc]
  · rw [h, hc]
  · simp [h]

theorem Rds.vote_rtc_other (r : Rds) (slot i : Fin 16) (cs : Vector Byte 4) (hi : i ≠ slot) :
    (r.vote slot cs).rtc[i.val] = r.rtc[i.val] := by
  have hn : slot.val ≠ i.val := fun k => hi (Fin.ext k.symm)
  rcases r.vote_cases slot cs with ⟨_, _, _, h⟩ | ⟨_, _, _, h⟩ | ⟨_, h⟩ <;> simp [h, hn]

theorem Rds.vote_rtq_other (r : Rds) (slot i : Fin 16) (cs : Vector Byte 4) (hi : i ≠ slot) :
    (r.vote slot cs).rtq[i.val] = r.rtq[i.val] := by
  have hn : slot.val ≠ i.val := fun k => hi (Fin.ext k.symm)
  rcases r.vote_cases slot cs with ⟨_, _, _, h⟩ | ⟨_, _, _, h⟩ | ⟨_, h⟩ <;> simp [h, hn]

/-! ### The group in the latch -/

theorem blockTp_eq (b : Word) : blockTp b = b.getLsbD 10 := rfl

/-- The type code of a block is its number over 4096 (R159). -/
theorem blockGtype_eq (b : Word) (k : Nat) (hk : k < 16) : blockGtype b = BitVec.ofNat 4 k ↔ b.toNat / 4096 = k := by
  rw [← BitVec.toNat_inj, blockGtype_toNat, BitVec.toNat_ofNat]
  omega

/-- Everything `RDS_PROCESS` can do with the group in the latch (R161). -/
theorem Rds.process_cases (r : Rds) :
    (r.grp[1].getLsbD 10 = true ∧ r.process = (r, processWord 0 false false 0)) ∨
    (r.grp[1].getLsbD 10 = false ∧ r.grp[1].toNat / 4096 = 0 ∧
      r.process = (r.psAssemble (blockIdx r.grp[1]) r.grp[3], processWord 2 false (sentinelMismatch r.grp[2]) 0)) ∨
    (r.grp[1].getLsbD 10 = false ∧ r.grp[1].toNat / 4096 = 2 ∧
      r.process = (r.rtAssemble (blockIdx r.grp[1]) r.grp[2] r.grp[3],
        processWord 3 (r.completes (blockIdx r.grp[1])) false
          (if r.completes (blockIdx r.grp[1]) then idxSlot (blockIdx r.grp[1]) else 0))) ∨
    (r.grp[1].getLsbD 10 = false ∧ r.grp[1].toNat / 4096 ≠ 0 ∧ r.grp[1].toNat / 4096 ≠ 2 ∧
      r.process = (r, processWord 1 false false 0)) := by
  have g0 : (blockGtype r.grp[1] = 0) = (r.grp[1].toNat / 4096 = 0) := propext (blockGtype_eq _ 0 (by omega))
  have g2 : (blockGtype r.grp[1] = 2) = (r.grp[1].toNat / 4096 = 2) := propext (blockGtype_eq _ 2 (by omega))
  simp only [Rds.process, blockTp_eq, g0, g2]
  cases hb : r.grp[1].getLsbD 10 with
  | true => exact .inl ⟨rfl, if_pos rfl⟩
  | false =>
    by_cases h0 : r.grp[1].toNat / 4096 = 0
    · exact .inr (.inl ⟨rfl, h0, by simp only [h0, if_true, Bool.false_eq_true, if_false]⟩)
    · by_cases h2 : r.grp[1].toNat / 4096 = 2
      · refine .inr (.inr (.inl ⟨rfl, h2, ?_⟩))
        simp only [eq_false h0, eq_true h2, if_true, Bool.false_eq_true, if_false]
      · exact .inr (.inr (.inr ⟨rfl, h0, h2, by simp only [h0, h2, Bool.false_eq_true, if_false]⟩))

/-- No group writes the latch or the target quality (R161). -/
@[simp] theorem Rds.process_grp (r : Rds) : r.process.1.grp = r.grp := by
  rcases r.process_cases with ⟨_, h⟩ | ⟨_, _, h⟩ | ⟨_, _, h⟩ | ⟨_, _, _, h⟩ <;> simp [h, Rds.rtAssemble]

@[simp] theorem Rds.process_target (r : Rds) : r.process.1.target = r.target := by
  rcases r.process_cases with ⟨_, h⟩ | ⟨_, _, h⟩ | ⟨_, _, h⟩ | ⟨_, _, _, h⟩ <;> simp [h, Rds.rtAssemble]

/-- A group completes exactly on a flip with every slot below its own settled (R164). -/
theorem Rds.completes_iff (r : Rds) (idx : BitVec 5) : r.completes idx = true ↔
    idxParity idx ≠ r.rtp ∧ ∀ i : Fin 16, i.val < (idxSlot idx).toNat → r.target ≤ r.rtq[i.val] := by
  simp only [Rds.completes, Rds.flips, Rds.settledBelow, Bool.and_eq_true, bne_iff_ne, List.all_eq_true,
    List.mem_range, decide_eq_true_eq]
  refine and_congr Iff.rfl ⟨fun h i hi => ?_, fun h i hi => ?_⟩
  · have := h i.val hi
    rwa [rd_of_lt _ _ _ i.isLt] at this
  · have hn := (idxSlot idx).isLt
    have hi' : i < 16 := by omega
    have := h ⟨i, hi'⟩ hi
    rwa [rd_of_lt _ _ _ hi']

/-- After an RT group the stored parity is the group's (R164). -/
@[simp] theorem Rds.rtAssemble_rtp (r : Rds) (idx : BitVec 5) (c d : Word) :
    (r.rtAssemble idx c d).rtp = idxParity idx := by
  simp only [Rds.rtAssemble, Rds.vote_rtp, Rds.flips]
  by_cases h : idxParity idx = r.rtp <;> simp [h]

/-! ### Encoder edges -/

theorem EncUnit.pinA_idle (u : EncUnit) (now : Nat) (e : Fin 2) (h : u.unit[e.val].st = .idle) :
    u.pinA now e = { u.put e { u.unit[e.val] with st := .aKeyed } with gt := armed now Config.tGlitch } := by
  simp [EncUnit.pinA, h]

theorem EncUnit.pinA_aKeyed (u : EncUnit) (now : Nat) (e : Fin 2) (h : u.unit[e.val].st = .aKeyed) :
    u.pinA now e = u.put e { u.unit[e.val] with st := .idle } := by
  simp [EncUnit.pinA, h]

theorem EncUnit.pinA_bKeyed (u : EncUnit) (now : Nat) (e : Fin 2) (h : u.unit[e.val].st = .bKeyed) :
    u.pinA now e = u.put e { u.unit[e.val] with st := .idle, rev := true } := by
  simp [EncUnit.pinA, h]

theorem EncUnit.pinB_idle (u : EncUnit) (now : Nat) (e : Fin 2) (h : u.unit[e.val].st = .idle) :
    u.pinB now e = { u.put e { u.unit[e.val] with st := .bKeyed } with gt := armed now Config.tGlitch } := by
  simp [EncUnit.pinB, h]

theorem EncUnit.pinB_aKeyed (u : EncUnit) (now : Nat) (e : Fin 2) (h : u.unit[e.val].st = .aKeyed) :
    u.pinB now e = u.put e { u.unit[e.val] with st := .idle, fwd := true } := by
  simp [EncUnit.pinB, h]

theorem EncUnit.pinB_bKeyed (u : EncUnit) (now : Nat) (e : Fin 2) (h : u.unit[e.val].st = .bKeyed) :
    u.pinB now e = u.put e { u.unit[e.val] with st := .idle } := by
  simp [EncUnit.pinB, h]

/-! ### The received byte -/

/-- Everything a received byte can do (R231): dropped; stored as the last of its line; stored inside its line. -/
theorem Framer.rx_cases (f : Framer) (now : Nat) (b : Byte) :
    ((b = 0x0D ∨ b = 0x00 ∨ f.curL.val = 10) ∧ f.rx now b = f) ∨
    (∃ h : f.curL.val < 10, b ≠ 0x0D ∧ b ≠ 0x00 ∧ (b = 0x0A ∨ f.curC.val = 49) ∧
      f.rx now b = { f.store b h with
        curL := ⟨f.curL.val + 1, by omega⟩, curC := 0, qt := armed now Config.tQuiet }) ∨
    (∃ (h : f.curL.val < 10) (hc : f.curC.val + 1 < 50), b ≠ 0x0D ∧ b ≠ 0x00 ∧ b ≠ 0x0A ∧
      f.rx now b = { f.store b h with curC := ⟨f.curC.val + 1, hc⟩, qt := none }) := by
  have hcl := f.curC.isLt
  by_cases h0 : b = 0x0D ∨ b = 0x00
  · refine .inl ⟨h0.elim .inl fun h => .inr (.inl h), ?_⟩
    unfold Framer.rx
    rw [if_pos h0]
  · by_cases hl : f.curL.val < 10
    · obtain ⟨hcr, hnul⟩ := not_or.mp h0
      by_cases hc : b = 0x0A ∨ f.curC.val + 1 = 50
      · refine .inr (.inl ⟨hl, hcr, hnul, hc.elim .inl fun h => .inr (by omega), ?_⟩)
        unfold Framer.rx
        rw [if_neg h0, dif_pos hl, dif_pos hc]
      · obtain ⟨hlf, hcol⟩ := not_or.mp hc
        refine .inr (.inr ⟨hl, by omega, hcr, hnul, hlf, ?_⟩)
        unfold Framer.rx
        rw [if_neg h0, dif_pos hl, dif_neg hc]
    · refine .inl ⟨.inr (.inr (by have := f.curL.isLt; omega)), ?_⟩
      unfold Framer.rx
      rw [if_neg h0, dif_neg hl]

@[simp] theorem Framer.rx_ready (f : Framer) (now : Nat) (b : Byte) : (f.rx now b).ready = f.ready := by
  rcases f.rx_cases now b with ⟨_, h⟩ | ⟨_, _, _, _, h⟩ | ⟨_, _, _, _, _, h⟩ <;> simp [h]

/-- A stored byte stands at the cursor and nowhere else (R231). -/
theorem Framer.store_line (f : Framer) (b : Byte) (h : f.curL.val < 10) (l : Fin 10) (c : Fin 50) :
    (f.store b h).line[l.val][c.val] =
      if l.val = f.curL.val ∧ c = f.curC then b else f.line[l.val][c.val] := by
  have hrow : (f.store b h).line[l.val] =
      if f.curL.val = l.val then (f.line[f.curL.val].set f.curC.val b) else f.line[l.val] := by
    simp only [Framer.store, Vector.getElem_set]
  by_cases hl : f.curL.val = l.val
  · simp only [hrow, hl, if_true, true_and, Vector.getElem_set, Fin.ext_iff, eq_comm]
  · have hn : ¬ (l.val = f.curL.val ∧ c = f.curC) := fun k => hl k.1.symm
    simp only [hrow, hl, hn, if_false]

/-- The stored byte counts in its line's length and in no other's (R231). -/
theorem Framer.store_len (f : Framer) (b : Byte) (h : f.curL.val < 10) (l : Fin 10) :
    ((f.store b h).len[l.val]).val = if l.val = f.curL.val then f.curC.val + 1 else f.len[l.val].val := by
  simp only [Framer.store, Vector.getElem_set]
  by_cases hl : f.curL.val = l.val
  · simp [hl]
  · rw [if_neg hl, if_neg (fun k => hl k.symm)]

end Sys2Proof.Machine
end

