-- ==== Sys2Proof/Laws/Flags.lean ====
section
/-!
SUPPORT. The response values as numbers, and the tokens that an `ENC_TAKE` reads and clears.
-/

namespace Sys2Proof.Machine

/-- A 2-bit value is one of four. -/
theorem bv2_cases (k : BitVec 2) : k = 0 ∨ k = 1 ∨ k = 2 ∨ k = 3 := by revert k; decide

theorem flagWord_eq (b : Bool) : flagWord b = BitVec.ofNat 16 b.toNat := by cases b <;> rfl

/-- The value of an RT group that completes a message of length `n` (R63, R161). -/
theorem processWord_complete (n : BitVec 4) : processWord 3 true false n = BitVec.ofNat 16 (7 + 16 * n.toNat) := by
  revert n; decide

theorem processWord_ps (mismatch : Bool) : processWord 2 false mismatch 0 = if mismatch then 10 else 2 := by
  cases mismatch <;> rfl

theorem rdsStateWord_eq (r : Rds) : rdsStateWord r = BitVec.ofNat 16 (r.target.toNat + 4 * r.rtp.toNat) := by
  have key : ∀ (p : Bool) (t : BitVec 2), (BitVec.ofBool p ++ t : BitVec 3).setWidth 16 =
      BitVec.ofNat 16 (t.toNat + 4 * p.toNat) := by decide
  exact key _ _

theorem encStateWord_eq (e : Encoder) (g : Bool) : encStateWord e g =
    BitVec.ofNat 16 (e.st.code.toNat + 4 * e.fwd.toNat + 8 * e.rev.toNat + 16 * e.push.toNat + 32 * g.toNat) := by
  have key : ∀ (c : BitVec 2) (f r p g : Bool),
      (BitVec.ofBool g ++ BitVec.ofBool p ++ BitVec.ofBool r ++ BitVec.ofBool f ++ c : BitVec 6).setWidth 16 =
        BitVec.ofNat 16 (c.toNat + 4 * f.toNat + 8 * r.toNat + 16 * p.toNat + 32 * g.toNat) := by decide
  exact key _ _ _ _ _

/-- Appending `b` below `a` adds `a` times the weight of `b`'s width. -/
theorem append_toNat {m n : Nat} (a : BitVec m) (b : BitVec n) : (a ++ b).toNat = a.toNat * 2 ^ n + b.toNat := by
  rw [BitVec.toNat_append, ← Nat.shiftLeft_add_eq_or_of_lt b.isLt, Nat.shiftLeft_eq]

theorem frStateWord_eq (f : Framer) : frStateWord f = BitVec.ofNat 16
    (f.curL.val + 16 * f.curC.val + 1024 * f.qt.isSome.toNat + 2048 * f.ready.toNat) := by
  have hl := f.curL.isLt
  have hc := f.curC.isLt
  apply BitVec.eq_of_toNat_eq
  have hb : ∀ b : Bool, (BitVec.ofBool b).toNat = b.toNat := by decide
  have h1 : f.ready.toNat ≤ 1 := Bool.toNat_le _
  have h2 : f.qt.isSome.toNat ≤ 1 := Bool.toNat_le _
  simp only [frStateWord, BitVec.toNat_setWidth, append_toNat, BitVec.toNat_ofNat, hb]
  omega

/-- `ENC_TAKE` with a legal selector reads the token it names (R200). -/
theorem Encoder.token_eq (x : Encoder) (k : BitVec 2) (h : k ≠ 3) :
    x.token k = if k = 0 then x.fwd else if k = 1 then x.rev else x.push := by
  rcases bv2_cases k with rfl | rfl | rfl | rfl
  · rfl
  · rfl
  · rfl
  · exact absurd rfl h

@[simp] theorem Encoder.taken_st (x : Encoder) (k : BitVec 2) : (x.taken k).st = x.st := by
  rcases bv2_cases k with rfl | rfl | rfl | rfl <;> rfl

/-- Only the token the selector names is cleared (R49, R200). -/
theorem Encoder.taken_fwd (x : Encoder) (k : BitVec 2) : (x.taken k).fwd = (x.fwd && k != 0) := by
  rcases bv2_cases k with rfl | rfl | rfl | rfl <;> simp [Encoder.taken]

theorem Encoder.taken_rev (x : Encoder) (k : BitVec 2) : (x.taken k).rev = (x.rev && k != 1) := by
  rcases bv2_cases k with rfl | rfl | rfl | rfl <;> simp [Encoder.taken]

theorem Encoder.taken_push (x : Encoder) (k : BitVec 2) : (x.taken k).push = (x.push && k != 2) := by
  rcases bv2_cases k with rfl | rfl | rfl | rfl <;> simp [Encoder.taken]

end Sys2Proof.Machine
end

