-- ==== Sys2Proof/Laws/PerInstr.lean ====
section
/-!
SUPPORT. Families of facts that hold of every instruction as syntax, one lemma per constructor.

`ClassBit` (spec/30_encoding.md R102): the class bit of an instruction's word is set exactly when it is an event.
-/

namespace Sys2Proof.Laws

/-- The class bit of the instruction's word is its class (R102). -/
def ClassBit.Statement (i : Instr) : Prop := classBit (encode i) = i.isEvent

theorem ClassBit.sysNop : ClassBit.Statement .sysNop := classBit_pack _ _ _
theorem ClassBit.sysReset : ClassBit.Statement .sysReset := classBit_pack _ _ _
theorem ClassBit.brRead (count : BitVec 8) : ClassBit.Statement (.brRead count) := classBit_pack _ _ _
theorem ClassBit.brWrite (ub : BitVec 8) : ClassBit.Statement (.brWrite ub) := classBit_pack _ _ _
theorem ClassBit.brSetimg (addr : BitVec 8) (word : Word) : ClassBit.Statement (.brSetimg addr word) :=
  classBit_pack _ _ _
theorem ClassBit.brGetres (addr : BitVec 8) : ClassBit.Statement (.brGetres addr) := classBit_pack _ _ _
theorem ClassBit.brGetimg (addr : BitVec 8) : ClassBit.Statement (.brGetimg addr) := classBit_pack _ _ _
theorem ClassBit.rdsLoadblk (blk : BitVec 8) (word : Word) : ClassBit.Statement (.rdsLoadblk blk word) :=
  classBit_pack _ _ _
theorem ClassBit.rdsProcess : ClassBit.Statement .rdsProcess := classBit_pack _ _ _
theorem ClassBit.rdsSettarget (tq : BitVec 8) : ClassBit.Statement (.rdsSettarget tq) := classBit_pack _ _ _
theorem ClassBit.rdsRender (len : BitVec 8) (q : BitVec 2) : ClassBit.Statement (.rdsRender len q) :=
  classBit_pack _ _ _
theorem ClassBit.rdsGetps : ClassBit.Statement .rdsGetps := classBit_pack _ _ _
theorem ClassBit.rdsClear : ClassBit.Statement .rdsClear := classBit_pack _ _ _
theorem ClassBit.rdsGetslot (slot : BitVec 8) : ClassBit.Statement (.rdsGetslot slot) := classBit_pack _ _ _
theorem ClassBit.rdsGetstate : ClassBit.Statement .rdsGetstate := classBit_pack _ _ _
theorem ClassBit.encTake (enc : BitVec 8) (k : BitVec 2) : ClassBit.Statement (.encTake enc k) :=
  classBit_pack _ _ _
theorem ClassBit.encState (enc : BitVec 8) : ClassBit.Statement (.encState enc) := classBit_pack _ _ _
theorem ClassBit.evPina (enc : BitVec 8) : ClassBit.Statement (.evPina enc) := classBit_pack _ _ _
theorem ClassBit.evPinb (enc : BitVec 8) : ClassBit.Statement (.evPinb enc) := classBit_pack _ _ _
theorem ClassBit.evPush (enc : BitVec 8) : ClassBit.Statement (.evPush enc) := classBit_pack _ _ _
theorem ClassBit.evGlitchExpire : ClassBit.Statement .evGlitchExpire := classBit_pack _ _ _
theorem ClassBit.frTakeready : ClassBit.Statement .frTakeready := classBit_pack _ _ _
theorem ClassBit.frGetline (line : BitVec 8) : ClassBit.Statement (.frGetline line) := classBit_pack _ _ _
theorem ClassBit.frClear : ClassBit.Statement .frClear := classBit_pack _ _ _
theorem ClassBit.frState : ClassBit.Statement .frState := classBit_pack _ _ _
theorem ClassBit.evRxbyte (b : Byte) : ClassBit.Statement (.evRxbyte b) := classBit_pack _ _ _
theorem ClassBit.evQuietExpire : ClassBit.Statement .evQuietExpire := classBit_pack _ _ _

end Sys2Proof.Laws
end

