-- ==== Sys2Proof/Tests/Slice0.lean ====
section
/-!
SUPPORT. The model's own tests. Expected results are the vectors of spec/95_test_vectors.md (V<n>) or worked by hand
from the rule named. Then, for each statement of Certificates/Slice0/Obligations.lean that has hypotheses, a witness: a
concrete state and operands that meet them, one for each clause, at a boundary value where the clause has a range.
-/

namespace Sys2Proof.Tests

open Sys2Proof.Machine

/-! ## Words written out from the encoding (R100, R106) -/

theorem test_decode_sys : decode 0x00000000 = some .sysNop ∧ decode 0x01000000 = some .sysReset := by decide

theorem test_decode_br :
    decode 0x10030000 = some (.brRead 3) ∧ decode 0x11050000 = some (.brWrite 5) ∧
    decode 0x12038066 = some (.brSetimg 3 0x8066) ∧ decode 0x130A0000 = some (.brGetres 0x0A) ∧
    decode 0x140F0000 = some (.brGetimg 0x0F) := by decide

theorem test_decode_rds :
    decode 0x20036F21 = some (.rdsLoadblk 3 0x6F21) ∧ decode 0x21000000 = some .rdsProcess ∧
    decode 0x22020000 = some (.rdsSettarget 2) ∧ decode 0x23030001 = some (.rdsRender 3 1) ∧
    decode 0x24000000 = some .rdsGetps ∧ decode 0x25000000 = some .rdsClear ∧
    decode 0x26050000 = some (.rdsGetslot 5) ∧ decode 0x27000000 = some .rdsGetstate := by decide

theorem test_decode_enc :
    decode 0x30010002 = some (.encTake 1 2) ∧ decode 0x31010000 = some (.encState 1) ∧
    decode 0x38000000 = some (.evPina 0) ∧ decode 0x39010000 = some (.evPinb 1) ∧
    decode 0x3A000000 = some (.evPush 0) ∧ decode 0x3B000000 = some .evGlitchExpire := by decide

theorem test_decode_fr :
    decode 0x40000000 = some .frTakeready ∧ decode 0x41090000 = some (.frGetline 9) ∧
    decode 0x42000000 = some .frClear ∧ decode 0x43000000 = some .frState ∧
    decode 0x48000041 = some (.evRxbyte 0x41) ∧ decode 0x49000000 = some .evQuietExpire := by decide

/-- V42: words that select no row, and an operand out of range that still does (R103, R107). -/
theorem test_decode_rejects :
    decode 0x02000000 = none ∧ decode 0x00000001 = none ∧ decode 0x15000000 = none ∧ decode 0x28000000 = none ∧
    decode 0x44000000 = none ∧ decode 0x50000000 = none ∧ decode 0xF0000000 = none ∧ decode 0x21010000 = none ∧
    decode 0x23020004 = none ∧ decode 0x30000004 = none ∧ decode 0x48010041 = none ∧
    decode 0x10110000 = some (.brRead 17) := by decide

/-! ## Ill-formed instructions: the check refuses each (R109) -/

theorem test_wellFormed_refuses_evPina : (Instr.evPina 2).wellFormed = false := by decide
theorem test_wellFormed_refuses_evPinb : (Instr.evPinb 2).wellFormed = false := by decide
theorem test_wellFormed_refuses_evPush : (Instr.evPush 255).wellFormed = false := by decide
theorem test_wellFormed_accepts : (Instr.evPina 1).wellFormed = true ∧ (Instr.brRead 17).wellFormed = true := by decide

/-! ## Small states -/

/-- A field of the state after an instruction; none if it gives no next state. -/
def after {α : Type} (o : Host.Outcome State Fault Refusal) (f : State → α) : Option α :=
  match o with
  | .next s => some (f s)
  | .fault _ => none
  | .refused _ => none

/-- The response records of a state. -/
def resp (s : State) : List Response := s.env.out

/-- The state after reset with one input to come. -/
def withInput (t : Nat) (x : Item) : State :=
  { State.reset with env := { State.reset.env with inbox := [⟨t, x⟩] } }

/-- The fourth transfer is outstanding, and one input is to come. -/
def outstanding (tr : Transfer) (x : Item) : State :=
  { State.reset with
    hpBusy := true
    xfer := some tr
    env := { State.reset.env with inbox := [⟨7, x⟩], posted := 4 } }

/-- A read of `n` bytes for `BR_READ count` is outstanding, and the bus answers with `data`. -/
def readAnswered (count n : Nat) (data : List Byte) : State := outstanding (.read 0x10 count n) (.busData 4 data)

/-- A write of one word is outstanding, and the bus answers with the count `m`. -/
def writeAnswered (m : Nat) : State := outstanding (.write 0x10 [0x40, 0x01]) (.busCount 4 m)

/-- The group of Blocks `b`, `c`, `d` in the latch. -/
def group (b c d : Word) : State :=
  { State.reset with rds := { State.reset.rds with grp := #v[0, b, c, d] } }

/-- Slot 5 holds "Hell" with quality 1 and the latch an RT group for it (V12). -/
def voted (b c d : Word) : State :=
  { State.reset with rds :=
    { State.reset.rds with
      grp := #v[0, b, c, d]
      rtc := State.reset.rds.rtc.set 5 #v[0x48, 0x65, 0x6C, 0x6C]
      rtq := State.reset.rds.rtq.set 5 1 } }

/-- Encoder 1 in state `x` with its reverse token set, and the glitch timer armed. -/
def turning (x : EncState) : State :=
  { State.reset with enc := ⟨#v[⟨.idle, false, false, false⟩, ⟨x, false, true, false⟩], some 50⟩ }

/-- The framer with the cursor at line `l`, column `c`, with `READY` set and the timer armed. -/
def framing (l : Fin 11) (c : Fin 50) : State :=
  { State.reset with fr := { State.reset.fr with curL := l, curC := c, ready := true, qt := some 50 } }

/-! ## One step of each instruction -/

theorem test_sysNop : after (exec .sysNop .reset) resp = some [⟨.ok, 0, []⟩] := by decide

/-- V41: the target and the latch go back to their reset values. -/
theorem test_sysReset : after (exec .sysReset (group 0x2010 1 2)) (fun s => (s.rds, resp s)) =
    some (Rds.reset, [⟨.ok, 0, []⟩]) := by decide

/-- V3: `BR_READ 3` asks 18 bytes. -/
theorem test_brRead_asks : after (exec (.brRead 3) .reset) (fun s => (s.xfer, s.hpBusy)) =
    some (some (.read Config.busAddr 3 18), true) := rfl

/-- V2: the seventh wire word is register 0, and the wrap words are discarded. -/
theorem test_brRead_wraps :
    after (step (readAnswered 1 14 [0xA0, 0x0A, 0xA0, 0x0B, 0xA0, 0x0C, 0xA0, 0x0D, 0xA0, 0x0E, 0xA0, 0x0F, 0x12, 0x00]))
      (fun s => (s.br.res[0], s.br.res[1], s.br.res[10], resp s)) = some (0x1200, 0, 0, [⟨.ok, 7, []⟩]) := by decide

/-- V9: `BR_WRITE 2` sends `WIMG[2]`, high byte first. -/
theorem test_brWrite_sends :
    after (exec (.brWrite 2) { State.reset with br := ⟨.replicate 16 0, (Vector.replicate 16 0).set 2 0x4001⟩ })
      (fun s => s.xfer) = some (some (.write Config.busAddr [0x40, 0x01])) := rfl

/-- V9: the answer to the write of one word. -/
theorem test_brWrite_answer : after (step (writeAnswered 2)) resp = some [⟨.ok, 1, []⟩] := by decide

/-- V8: `BR_SETIMG 3, 0x8066`. -/
theorem test_brSetimg : after (exec (.brSetimg 3 0x8066) .reset) (fun s => (s.br.wimg[3], s.br.wimg[2], s.br.res[3])) =
    some (0x8066, 0, 0) := by decide

/-- R134 reads `RES`, not `WIMG`. -/
theorem test_brGetres : after (exec (.brGetres 1) { State.reset with br := ⟨(Vector.replicate 16 0).set 1 0x1201,
    .replicate 16 7⟩ }) resp = some [⟨.ok, 0x1201, []⟩] := by decide

/-- R135 reads `WIMG`, not `RES`. -/
theorem test_brGetimg : after (exec (.brGetimg 15) { State.reset with br := ⟨.replicate 16 7,
    (Vector.replicate 16 0).set 15 0x0C1F⟩ }) resp = some [⟨.ok, 0x0C1F, []⟩] := by decide

theorem test_rdsLoadblk : after (exec (.rdsLoadblk 3 0x6F21) .reset) (fun s => s.rds.grp) = some #v[0, 0, 0, 0x6F21] := by
  decide

/-- V1a: index 5 addresses pair 1. -/
theorem test_rdsProcess_ps : after (exec .rdsProcess (group 0x0005 0 0x4142)) (fun s => s.rds.ps) =
    some #v[0, 0, 0x41, 0x42, 0, 0, 0, 0] := by decide

/-- V12: a second identical reception gives quality 2. -/
theorem test_rdsProcess_rt : after (exec .rdsProcess (voted 0x2005 0x4865 0x6C6C))
    (fun s => (s.rds.rtq[5], s.rds.rtc[5], resp s)) =
    some (2, #v[0x48, 0x65, 0x6C, 0x6C], [⟨.ok, 3, []⟩]) := by decide

/-- V13. -/
theorem test_rdsSettarget : after (exec (.rdsSettarget 2) .reset) (fun s => s.rds.target) = some 2 := by decide

/-- R166: a slot of quality 1 shows at `q = 1`. -/
theorem test_rdsRender_shows : after (exec (.rdsRender 6 1) (voted 0 0 0)) (fun s => (resp s).map fun r => r.bytes.drop 16) =
    some [[0x20, 0x20, 0x20, 0x20, 0x48, 0x65, 0x6C, 0x6C]] := by decide

/-- V19: `RDS_RENDER 0, 3`. -/
theorem test_rdsRender_empty : after (exec (.rdsRender 0 3) (voted 0 0 0)) resp = some [⟨.ok, 0, []⟩] := by decide

theorem test_rdsGetps : after (exec .rdsGetps { State.reset with rds :=
    { State.reset.rds with ps := #v[1, 2, 3, 4, 5, 6, 7, 8] } }) resp =
    some [⟨.ok, 0, [1, 2, 3, 4, 5, 6, 7, 8]⟩] := by decide

/-- V19: the latch stays, the slots go. -/
theorem test_rdsClear : after (exec .rdsClear (voted 0x2005 0 9)) (fun s => (s.rds.grp, s.rds.rtq[5], s.rds.rtc[5])) =
    some (#v[0, 0x2005, 0, 9], 0, #v[0, 0, 0, 0]) := by decide

theorem test_rdsGetslot : after (exec (.rdsGetslot 5) (voted 0 0 0)) resp =
    some [⟨.ok, 1, [0x48, 0x65, 0x6C, 0x6C]⟩] := by decide

/-- V14: TARGET 3, RTP 1. -/
theorem test_rdsGetstate : after (exec .rdsGetstate { State.reset with rds := { State.reset.rds with rtp := true } })
    resp = some [⟨.ok, 7, []⟩] := by decide

/-- V26: the token is read and cleared. -/
theorem test_encTake : after (exec (.encTake 1 1) (turning .idle)) (fun s => (s.enc.unit[1].rev, resp s)) =
    some (false, [⟨.ok, 1, []⟩]) := by decide

/-- R63: BKeyed 2, REV 8, GT armed 32. -/
theorem test_encState : after (exec (.encState 1) (turning .bKeyed)) resp = some [⟨.ok, 0x2A, []⟩] := by decide

/-- R202: `BKeyed` and pin A make a reverse token. -/
theorem test_evPina : after (exec (.evPina 0) { State.reset with enc :=
    ⟨#v[⟨.bKeyed, false, false, false⟩, ⟨.bKeyed, false, false, false⟩], some 50⟩ }) (fun s => s.enc) =
    some ⟨#v[⟨.idle, false, true, false⟩, ⟨.bKeyed, false, false, false⟩], some 50⟩ := by decide

/-- R203: `AKeyed` and pin B make a forward token. -/
theorem test_evPinb : after (exec (.evPinb 1) (turning .aKeyed)) (fun s => s.enc.unit[1]) =
    some ⟨.idle, true, true, false⟩ := by decide

/-- V24: a push leaves the quadrature state. -/
theorem test_evPush : after (exec (.evPush 1) (turning .aKeyed)) (fun s => s.enc.unit[1]) =
    some ⟨.aKeyed, false, true, true⟩ := by decide

theorem test_evGlitchExpire : after (exec .evGlitchExpire (turning .bKeyed)) (fun s => (s.enc.unit[1], s.enc.gt)) =
    some (⟨.idle, false, true, false⟩, none) := by decide

theorem test_frTakeready : after (exec .frTakeready (framing 1 0)) (fun s => (s.fr.ready, resp s)) =
    some (false, [⟨.ok, 1, []⟩]) := by decide

/-- V35: the open line. -/
theorem test_frGetline : after (exec (.frGetline 0) { State.reset with fr :=
    { State.reset.fr with
      line := State.reset.fr.line.set 0 (((Vector.replicate 50 0).set 0 0x41).set 1 0x42)
      len := State.reset.fr.len.set 0 2
      curC := 2 } }) resp = some [⟨.ok, 2, [0x41, 0x42]⟩] := by decide

/-- V36: the timer and the flag stay. -/
theorem test_frClear : after (exec .frClear (framing 3 4)) (fun s => (s.fr.curL, s.fr.curC, s.fr.ready, s.fr.qt)) =
    some (0, 0, true, some 50) := by decide

/-- R63: line 3, column 4 (64), timer armed 1024, ready 2048. -/
theorem test_frState : after (exec .frState (framing 3 4)) resp = some [⟨.ok, 0xC43, []⟩] := by decide

/-- R231: an accepted byte is stored and cancels the timer. -/
theorem test_evRxbyte_stores : after (exec (.evRxbyte 0x41) (framing 3 4))
    (fun s => (s.fr.line[3][4], s.fr.len[3], s.fr.curC, s.fr.qt)) = some (0x41, 5, 5, none) := by decide

/-- V31: CR changes nothing, not even the timer. -/
theorem test_evRxbyte_cr : after (exec (.evRxbyte 0x0D) (framing 3 4)) (fun s => s.fr) = some (framing 3 4).fr := by
  decide

theorem test_evQuietExpire : after (exec .evQuietExpire { State.reset with fr := { State.reset.fr with qt := some 9 } })
    (fun s => (s.fr.ready, s.fr.qt)) = some (true, none) := by decide

/-! ## The step order -/

/-- V28: the expiry at the deadline goes before an input with the same stamp. -/
theorem test_step_tie : after (step { withInput 50 (.edge .b 1 true) with enc := (turning .aKeyed).enc })
    (fun s => (s.enc.unit[1].st, s.env.inbox.length, s.env.now)) = some (.idle, 1, 50) := by decide

/-- R311: the late answer to an abandoned transfer does not end the newer one of its kind. -/
theorem test_step_late_answer :
    after (step (outstanding (.read 0x10 11 2) (.busData 3 [0x40, 0x01]))) (fun s => (s.hpBusy, s.xfer, resp s)) =
      some (true, some (.read 0x10 11 2), []) := by decide

/-- V27: an event word on the host port is `ILLEGAL`, an event with encoder 2 is refused on the channel. -/
theorem test_step_event_class : after (step (withInput 3 (.host 0x38000000))) resp = some [⟨.illegal, 0, []⟩] ∧
    step (withInput 3 (.event 0x38020000)) = .refused (.badEncoder 2) ∧
    step (withInput 3 (.event 0x3C000000)) = .refused (.badEventWord 0x3C000000) := ⟨by decide, rfl, rfl⟩

/-- The row's first instruction after reset: a command and an event (log 20). -/
theorem test_withFetchWord : after (step (State.reset.withFetchWord 32 0x22020000)) (fun s => s.rds.target) = some 2 ∧
    after (step (State.reset.withFetchWord 32 0x3A010000)) (fun s => s.enc.unit[1].push) = some true := by decide

/-! ## Witnesses: the hypotheses of each statement are met -/

theorem nothingDue_of_disarmed (s : State) (t : Nat) (hg : s.enc.gt = none) (hq : s.fr.qt = none) :
    s.nothingDueBy t := by
  constructor
  · intro d h
    rw [hg] at h
    cases h
  · intro d h
    rw [hq] at h
    cases h

/-- A state whose timers are armed for later than `t`. -/
theorem nothingDue_of_later (s : State) (t d d' : Nat) (hg : s.enc.gt = some d) (hq : s.fr.qt = some d') (h : t < d)
    (h' : t < d') : s.nothingDueBy t := by
  constructor
  · intro x hx
    rw [hg] at hx
    cases hx
    exact h
  · intro x hx
    rw [hq] at hx
    cases hx
    exact h'

/-- Two commands wait on the free port. -/
def waitingState : State :=
  { State.reset with env := { State.reset.env with waiting := [0x24000000, 0x43000000] } }

/-- The port is busy with a read that the bus has not answered, and one input is to come. -/
def busyState (x : Item) : State := outstanding (.read 0x10 16 12) x

/-- Both timers armed, and one input stamped 50 to come. -/
def armedState (g q : Option Nat) (x : Item) : State :=
  { withInput 50 x with
    enc := { State.reset.enc with gt := g }
    fr := { State.reset.fr with qt := q } }

theorem test_witness_EncodeOfDecode : decode 0x230200FC = none ∧ decode 0x23020003 = some (.rdsRender 2 3) := by decide

/-- A command row, an event row, and a word that no row selects. -/
theorem test_witness_DecoderFollowsOpcodeMap :
    (∃ r ∈ opcodeMap, (0x48000041 : CmdWord) &&& r.mask = r.bits) ∧
    (∃ r ∈ opcodeMap, (0x12FFFFFF : CmdWord) &&& r.mask = r.bits) ∧
    (∀ r ∈ opcodeMap, (0x10030001 : CmdWord) &&& r.mask ≠ r.bits) := by decide

theorem test_witness_AtMostOneRow : ∃ r ∈ opcodeMap, ∃ r' ∈ opcodeMap,
    (0x10030000 : CmdWord) &&& r.mask = r.bits ∧ (0x10030000 : CmdWord) &&& r'.mask = r'.bits := by decide

theorem test_witness_StepRunsWaitingCommand : waitingState.hpBusy = false ∧ waitingState.env.rst = false ∧
    waitingState.env.waiting = 0x24000000 :: [0x43000000] ∧ waitingState.nothingDueBy waitingState.env.now ∧
    decode 0x24000000 = some .rdsGetps ∧ Instr.rdsGetps.isEvent = false :=
  ⟨rfl, rfl, rfl, nothingDue_of_disarmed _ _ rfl rfl, rfl, rfl⟩

/-- With both timers armed one microsecond after the stamp. -/
theorem test_witness_StepRunsPresentedCommand :
    let s := armedState (some 51) (some 51) (.host 0x01000000)
    s.hpBusy = false ∧ s.env.rst = false ∧ s.env.waiting = [] ∧ s.env.inbox = ⟨50, .host 0x01000000⟩ :: [] ∧
    s.nothingDueBy (max s.env.now 50) ∧ decode 0x01000000 = some .sysReset ∧ Instr.sysReset.isEvent = false :=
  ⟨rfl, rfl, rfl, rfl, nothingDue_of_later _ _ 51 51 rfl rfl (by decide) (by decide), rfl, rfl⟩

theorem test_witness_StepRunsDispatchedEvent (x : Item) : let s := armedState none (some 51) x
    s.env.rst = false ∧ (s.hpBusy = true ∨ s.env.waiting = []) ∧ s.env.inbox = ⟨50, x⟩ :: [] ∧
    s.nothingDueBy (max s.env.now 50) ∧ decode 0x49000000 = some .evQuietExpire ∧
    Instr.evQuietExpire.isEvent = true := by
  refine ⟨rfl, .inr rfl, rfl, ⟨?_, ?_⟩, rfl, rfl⟩
  · intro d h
    cases h
  · intro d h
    cases h
    exact (by decide : 50 < 51)

/-- The glitch timer due at once, and the quiet timer due at the input's stamp, one before the other. -/
theorem test_witness_DueTimerFires : let s := armedState (some 0) (some 50) (.rx 0x41)
    let s' := armedState (some 51) (some 50) (.rx 0x41)
    (s.env.waiting = [] ∧ s.env.inbox = ⟨50, .rx 0x41⟩ :: [] ∧ s.env.now ≤ 0 ∧ 0 ≤ max s.env.now 50 ∧
      s.enc.gt = some 0 ∧ ∀ d', s.fr.qt = some d' → 0 < d') ∧
    (s'.env.waiting = [] ∧ s'.env.inbox = ⟨50, .rx 0x41⟩ :: [] ∧ s'.env.now ≤ 50 ∧ 50 ≤ max s'.env.now 50 ∧
      s'.fr.qt = some 50 ∧ ∀ d', s'.enc.gt = some d' → 50 < d') := by
  refine ⟨⟨rfl, rfl, by decide, by decide, rfl, ?_⟩, rfl, rfl, by decide, by decide, rfl, ?_⟩
  · intro d h
    cases h
    decide
  · intro d h
    cases h
    decide

/-- The other timer disarmed, and the other timer due one microsecond later. -/
theorem test_witness_TimerFiresWithNothingToCome :
    let s : State := { framing 3 0 with enc := (turning .aKeyed).enc }
    let s' : State := { s with enc := { s.enc with gt := some 51 } }
    ((turning .aKeyed).env.inbox = [] ∧ (turning .aKeyed).env.waiting = [] ∧ (turning .aKeyed).env.now ≤ 50 ∧
      (turning .aKeyed).enc.gt = some 50 ∧ ∀ d', (turning .aKeyed).fr.qt = some d' → 50 < d') ∧
    (s'.env.inbox = [] ∧ s'.env.waiting = [] ∧ s'.env.now ≤ 50 ∧ s'.fr.qt = some 50 ∧
      ∀ d', s'.enc.gt = some d' → 50 < d') := by
  refine ⟨⟨rfl, rfl, by decide, rfl, ?_⟩, rfl, rfl, by decide, rfl, ?_⟩
  · intro d h
    cases h
  · intro d h
    cases h
    decide

/-- Nothing to come, and an input stamped exactly at the deadline. -/
theorem test_witness_TiedTimers (x : Item) :
    let s : State := { framing 3 0 with enc := (turning .aKeyed).enc }
    let s' := armedState (some 50) (some 50) x
    (s.enc.gt = some 50 ∧ s.fr.qt = some 50 ∧ s.env.now ≤ 50 ∧ s.env.inbox = [] ∧ s.env.waiting = []) ∧
    (s'.enc.gt = some 50 ∧ s'.fr.qt = some 50 ∧ s'.env.now ≤ 50 ∧ s'.env.waiting = [] ∧
      s'.env.inbox = ⟨50, x⟩ :: [] ∧ 50 ≤ max s'.env.now 50) :=
  ⟨⟨rfl, rfl, by decide, rfl, rfl⟩, rfl, rfl, (by decide : 0 ≤ 50), rfl, rfl, (by decide : 50 ≤ max 0 50)⟩

/-- An event row's word, and a word of no row, presented to the host port and waiting on it. -/
theorem test_witness_HostWordWithoutCommand (w : CmdWord) : let s := withInput 7 (.host w)
    let s' : State := { s with env := { s.env with waiting := [w] } }
    (s.hpBusy = false ∧ s.env.rst = false ∧ s.env.waiting = [] ∧ s.env.inbox = ⟨7, .host w⟩ :: [] ∧
      s.nothingDueBy (max s.env.now 7)) ∧
    (s'.hpBusy = false ∧ s'.env.rst = false ∧ s'.env.waiting = w :: [] ∧ s'.nothingDueBy s'.env.now) ∧
    (∀ r ∈ opcodeMap, (0x38000000 : CmdWord) &&& r.mask = r.bits → r.isEvent = true) ∧
    (∀ r ∈ opcodeMap, (0x50000000 : CmdWord) &&& r.mask = r.bits → r.isEvent = true) :=
  ⟨⟨rfl, rfl, rfl, rfl, nothingDue_of_disarmed _ _ rfl rfl⟩,
    ⟨rfl, rfl, rfl, nothingDue_of_disarmed _ _ rfl rfl⟩, by decide, by decide⟩

/-- A command row's word and a word of no row on the event channel, and the encoder numbers 2 and 255. -/
theorem test_witness_InvalidEventWord (w : CmdWord) : let s := withInput 7 (.event w)
    s.env.waiting = [] ∧ s.env.rst = false ∧ s.env.inbox = ⟨7, .event w⟩ :: [] ∧
    s.nothingDueBy (max s.env.now 7) ∧
    (∀ r ∈ opcodeMap, (0x00000000 : CmdWord) &&& r.mask = r.bits → r.isEvent = false) ∧
    (∀ r ∈ opcodeMap, (0x3C000000 : CmdWord) &&& r.mask = r.bits → r.isEvent = false) ∧
    2 ≤ (2 : BitVec 8).toNat ∧ encode (.evPina 2) = 0x38020000 ∧ 2 ≤ (255 : BitVec 8).toNat ∧
    encode (.evPush 255) = 0x3AFF0000 :=
  ⟨rfl, rfl, rfl, nothingDue_of_disarmed _ _ rfl rfl, by decide, by decide, by decide, by decide, by decide, by decide⟩

theorem test_witness_BusyPort : let s := busyState (.host 0x00000000)
    s.hpBusy = true ∧ s.env.inbox = ⟨7, .host 0x00000000⟩ :: [] ∧ s.nothingDueBy (max s.env.now 7) :=
  ⟨rfl, rfl, nothingDue_of_disarmed _ _ rfl rfl⟩

theorem test_witness_PowerOnReset : let s := busyState .resetOn
    (s.hpBusy = true ∨ s.env.rst = true ∨ s.env.waiting = []) ∧ s.env.inbox = ⟨7, .resetOn⟩ :: [] ∧
    s.nothingDueBy (max s.env.now 7) :=
  ⟨.inl rfl, rfl, nothingDue_of_disarmed _ _ rfl rfl⟩

/-- A falling edge; a byte during reset; an answer with nothing outstanding, and one to the transfer before. -/
theorem test_witness_InputsWithoutEffect (x : Item) : let s := withInput 7 x
    let r : State := { s with env := { s.env with rst := true } }
    let b := outstanding (.read 0x10 11 2) (.busData 3 [0x40, 0x01])
    (s.env.waiting = [] ∧ s.env.inbox = ⟨7, x⟩ :: [] ∧ s.nothingDueBy (max s.env.now 7) ∧ s.xfer = none) ∧
    (r.env.rst = true ∧ r.env.inbox = ⟨7, x⟩ :: [] ∧ r.nothingDueBy (max r.env.now 7)) ∧
    (b.hpBusy = true ∧ b.env.inbox = ⟨7, .busData 3 [0x40, 0x01]⟩ :: [] ∧ b.nothingDueBy (max b.env.now 7) ∧
      3 ≠ b.env.posted) :=
  ⟨⟨rfl, rfl, nothingDue_of_disarmed _ _ rfl rfl, rfl⟩, ⟨rfl, rfl, nothingDue_of_disarmed _ _ rfl rfl⟩,
    rfl, rfl, nothingDue_of_disarmed _ _ rfl rfl, (by decide : 3 ≠ 4)⟩

theorem test_witness_TimeNeverDecreases : ∃ t, step (withInput 7 (.rx 0x41)) = .next t := ⟨_, rfl⟩

theorem test_witness_OnlyRawEventWords : step (withInput 7 (.event 0x38020000)) = .refused (.badEncoder 2) ∧
    step (withInput 7 (.event 0x00000000)) = .refused (.badEventWord 0) := ⟨rfl, rfl⟩

/-- Each command at the first value outside its range, on each side that has one (R107). -/
theorem test_witness_OperandOutOfRange : ∀ i ∈ [Instr.brRead 0, .brRead 17, .brWrite 1, .brWrite 16, .brSetimg 16 5,
    .brGetres 16, .brGetimg 16, .rdsLoadblk 4 5, .rdsSettarget 0, .rdsSettarget 4, .rdsRender 17 3, .rdsGetslot 16,
    .encTake 2 0, .encTake 1 3, .encState 2, .frGetline 10], i.isEvent = false ∧ operandsLegal i = false := by decide

/-- A command that responds, one that posts a transfer, and an event. -/
theorem test_witness_OneResponse : (∃ t, exec .frState .reset = .next t) ∧ (∃ t, exec (.brWrite 15) .reset = .next t) ∧
    (∃ t, exec (.evRxbyte 0x41) .reset = .next t) ∧ Instr.frState.isEvent = false ∧
    (Instr.brWrite 15).isEvent = false ∧ (Instr.evRxbyte 0x41).isEvent = true :=
  ⟨⟨_, rfl⟩, ⟨_, rfl⟩, ⟨_, rfl⟩, rfl, rfl, rfl⟩

theorem test_witness_ErrorsAreStateless : ∃ t, exec (.brRead 17) .reset = .next t ∧
    t.env.out = State.reset.env.out ++ [⟨.rangeError, 0, []⟩] ∧ Status.rangeError ≠ .ok := ⟨_, rfl, rfl, by decide⟩

theorem test_witness_Observations : (∃ t, exec (.brGetres 15) .reset = .next t) ∧
    (∃ t, exec (.brGetimg 16) .reset = .next t) ∧ (∃ t, exec .rdsGetps .reset = .next t) ∧
    (∃ t, exec (.rdsRender 16 3) .reset = .next t) ∧ (∃ t, exec (.rdsGetslot 15) .reset = .next t) ∧
    (∃ t, exec .rdsGetstate .reset = .next t) ∧ (∃ t, exec (.encState 1) .reset = .next t) ∧
    (∃ t, exec (.frGetline 9) .reset = .next t) ∧ (∃ t, exec .frState .reset = .next t) :=
  ⟨⟨_, rfl⟩, ⟨_, rfl⟩, ⟨_, rfl⟩, ⟨_, rfl⟩, ⟨_, rfl⟩, ⟨_, rfl⟩, ⟨_, rfl⟩, ⟨_, rfl⟩, ⟨_, rfl⟩⟩

/-- Two states with the same debouncer, bridge and port and different framers, at one time; and a bus answer to each. -/
theorem test_witness_UnitsDoNotInterfere :
    let s := readAnswered 11 2 [0x40, 0x01]
    let s' : State := { s with fr := (framing 3 4).fr }
    ((∃ t, exec (.encState 1) s = .next t) ∧ (∃ t', exec (.encState 1) s' = .next t') ∧ s.env.now = s'.env.now ∧
      s.enc = s'.enc ∧ s.br = s'.br ∧ s.rds = s'.rds ∧ s.fr = s.fr ∧
      (encode (.encState 1)).extractLsb' 28 4 = 3) ∧
    ((∃ t, deliver (.busData 4 [0x40, 0x01]) s = .next t) ∧ (∃ t', deliver (.busData 4 [0x40, 0x01]) s' = .next t') ∧
      s.env.posted = s'.env.posted ∧ s.xfer = s'.xfer) :=
  ⟨⟨⟨_, rfl⟩, ⟨_, rfl⟩, rfl, rfl, rfl, rfl, rfl, by decide⟩, ⟨_, rfl⟩, ⟨_, rfl⟩, rfl, rfl⟩

/-- Each buffer is changed by the instruction that writes it. -/
theorem test_witness_BufferWriters :
    after (exec (.brRead 10) { State.reset with br := ⟨.replicate 16 7, .replicate 16 0⟩ }) (fun t => t.br.res[0]) =
      some 0 ∧
    after (exec (.brSetimg 15 9) .reset) (fun t => t.br.wimg[15]) = some 9 ∧
    after (exec (.rdsLoadblk 3 9) .reset) (fun t => t.rds.grp[3]) = some 9 ∧
    after (exec (.rdsSettarget 1) .reset) (fun t => t.rds.target) = some 1 ∧
    after (exec .rdsProcess (group 0x2010 0 0)) (fun t => t.rds.rtp) = some true ∧
    after (exec .rdsProcess (group 0x0000 0 0x5269)) (fun t => t.rds.ps[0]) = some 0x52 ∧
    after (exec .rdsProcess (group 0x2000 0x4865 0)) (fun t => (t.rds.rtc[0][0], t.rds.rtq[0])) = some (0x48, 1) ∧
    after (exec (.evRxbyte 0x0A) .reset) (fun t => (t.fr.line[0][0], t.fr.len[0], t.fr.curL)) = some (0x0A, 1, 1) ∧
    after (exec .frClear (framing 3 4)) (fun t => t.fr.curC) = some 0 := by decide

/-- Each flag is set before its take and clear after it. -/
theorem test_witness_FlagsCleared :
    let all : State := { framing 1 0 with enc := ⟨.replicate 2 ⟨.idle, true, true, true⟩, none⟩ }
    (all.enc.unit[1].fwd = true ∧ after (exec (.encTake 1 0) all) (fun t => t.enc.unit[1].fwd) = some false) ∧
    (all.enc.unit[0].rev = true ∧ after (exec (.encTake 0 1) all) (fun t => t.enc.unit[0].rev) = some false) ∧
    (all.enc.unit[1].push = true ∧ after (exec (.encTake 1 2) all) (fun t => t.enc.unit[1].push) = some false) ∧
    (all.fr.ready = true ∧ after (exec .frTakeready all) (fun t => t.fr.ready) = some false) := by decide

/-- Each range of `count` at its ends. -/
theorem test_witness_BrRead : (0 : BitVec 8).toNat = 0 ∧ 17 ≤ (17 : BitVec 8).toNat ∧ (10 : BitVec 8).toNat = 10 ∧
    (1 ≤ (1 : BitVec 8).toNat ∧ (9 : BitVec 8).toNat ≤ 9) ∧ (11 ≤ (11 : BitVec 8).toNat ∧ (16 : BitVec 8).toNat ≤ 16) := by
  decide

/-- The shortest read of each portion: `count` 1 asks 14 bytes and keeps register 0, `count` 11 asks 2 and keeps 10. -/
theorem test_witness_ReadAnswer :
    let s := readAnswered 1 14 (List.replicate 14 0x5A)
    let s' := readAnswered 11 2 [0x40, 0x01]
    (s.hpBusy = true ∧ s.xfer = some (.read 0x10 1 14) ∧ s.env.inbox = ⟨7, .busData s.env.posted (List.replicate 14 0x5A)⟩ :: [] ∧
      s.nothingDueBy (max s.env.now 7) ∧ (List.replicate 14 (0x5A : Byte)).length = 14 ∧ 14 = 2 * (1 + 6)) ∧
    (s'.hpBusy = true ∧ s'.xfer = some (.read 0x10 11 2) ∧ s'.env.inbox = ⟨7, .busData s'.env.posted [0x40, 0x01]⟩ :: [] ∧
      s'.nothingDueBy (max s'.env.now 7) ∧ [(0x40 : Byte), 0x01].length = 2 ∧ 2 = 2 * (11 - 10)) :=
  ⟨⟨rfl, rfl, rfl, nothingDue_of_disarmed _ _ rfl rfl, rfl, rfl⟩,
    rfl, rfl, rfl, nothingDue_of_disarmed _ _ rfl rfl, rfl, rfl⟩

/-- An answer one byte short, to a read and to a write. -/
theorem test_witness_WrongByteCount :
    let s := readAnswered 11 2 [0x40]
    let s' := writeAnswered 1
    (s.hpBusy = true ∧ s.env.inbox = ⟨7, .busData s.env.posted [0x40]⟩ :: [] ∧ s.nothingDueBy (max s.env.now 7) ∧
      s.xfer = some (.read 0x10 11 2) ∧ [(0x40 : Byte)].length ≠ 2) ∧
    (s'.hpBusy = true ∧ s'.env.inbox = ⟨7, .busCount s'.env.posted 1⟩ :: [] ∧ s'.nothingDueBy (max s'.env.now 7) ∧
      s'.xfer = some (.write 0x10 [0x40, 0x01]) ∧ 1 ≠ [(0x40 : Byte), 0x01].length) :=
  ⟨⟨rfl, rfl, nothingDue_of_disarmed _ _ rfl rfl, rfl, by decide⟩,
    rfl, rfl, nothingDue_of_disarmed _ _ rfl rfl, rfl, by decide⟩

theorem test_witness_BrWrite : (1 : BitVec 8).toNat < 0x02 ∧ 0x0F < (16 : BitVec 8).toNat ∧
    0x02 ≤ (2 : BitVec 8).toNat ∧ (15 : BitVec 8).toNat ≤ 0x0F := by decide

theorem test_witness_WriteAnswer : let s := writeAnswered (2 * 1)
    s.hpBusy = true ∧ s.xfer = some (.write 0x10 [0x40, 0x01]) ∧ [(0x40 : Byte), 0x01].length = 2 * 1 ∧
    s.env.inbox = ⟨7, .busCount s.env.posted (2 * 1)⟩ :: [] ∧ s.nothingDueBy (max s.env.now 7) :=
  ⟨rfl, rfl, rfl, rfl, nothingDue_of_disarmed _ _ rfl rfl⟩

theorem test_witness_BrSetimg : 0x0F < (16 : BitVec 8).toNat ∧ (15 : BitVec 8).toNat ≤ 0x0F := by decide

theorem test_witness_BrGet : 0x0F < (16 : BitVec 8).toNat ∧ (15 : Fin 16).val = (15 : BitVec 8).toNat := by decide

theorem test_witness_RdsLoadblk : 3 < (4 : BitVec 8).toNat ∧ (3 : BitVec 8).toNat ≤ 3 := by decide

/-- A traffic-program group, and the types next to 0 and 2. -/
theorem test_witness_RdsProcessIgnores : (group 0x2410 0 0).rds.grp[1].getLsbD 10 = true ∧
    (group 0x1000 0 0).rds.grp[1].getLsbD 10 = false ∧
    (group 0x1000 0 0).rds.grp[1].toNat / 4096 ≠ 0 ∧ (group 0x1000 0 0).rds.grp[1].toNat / 4096 ≠ 2 ∧
    (group 0x3000 0 0).rds.grp[1].getLsbD 10 = false ∧
    (group 0x3000 0 0).rds.grp[1].toNat / 4096 ≠ 0 ∧ (group 0x3000 0 0).rds.grp[1].toNat / 4096 ≠ 2 :=
  ⟨rfl, rfl, by decide, by decide, rfl, by decide, by decide⟩

theorem test_witness_RdsProcessPs : (group 0x0BFF 0 0).rds.grp[1].getLsbD 10 = false ∧
    (group 0x0BFF 0 0).rds.grp[1].toNat / 4096 = 0 := by decide

/-- An empty slot, a slot that holds the same characters, and one that holds others. -/
theorem test_witness_RdsProcessVotes :
    (∀ s ∈ [group 0x2005 0x4865 0x6C6C, voted 0x2005 0x4865 0x6C6C, voted 0x2005 0x4865 0x6F21],
      s.rds.grp[1].getLsbD 10 = false ∧ s.rds.grp[1].toNat / 4096 = 2 ∧ (5 : Fin 16).val = s.rds.grp[1].toNat % 16) ∧
    (group 0x2005 0x4865 0x6C6C).rds.rtq[5] = 0 ∧ (voted 0x2005 0x4865 0x6C6C).rds.rtq[5] ≠ 0 ∧
    (voted 0x2005 0x4865 0x6C6C).rds.rtc[5] = #v[0x48, 0x65, 0x6C, 0x6C] ∧
    (voted 0x2005 0x4865 0x6F21).rds.rtc[5] ≠ #v[0x48, 0x65, 0x6F, 0x21] := by decide

/-- A flip at slot 0 completes, a flip at slot 1 over an empty slot 0 does not, and a group without a flip does not. -/
theorem test_witness_RdsProcessCompletes :
    let s := group 0x2010 0 0
    let s' := group 0x2011 0 0
    let s'' := group 0x2001 0 0
    (s.rds.grp[1].getLsbD 10 = false ∧ s.rds.grp[1].toNat / 4096 = 2 ∧ s.rds.grp[1].getLsbD 4 ≠ s.rds.rtp ∧
      ∀ i : Fin 16, i.val < s.rds.grp[1].toNat % 16 → s.rds.target.toNat ≤ s.rds.rtq[i].toNat) ∧
    (s'.rds.grp[1].getLsbD 10 = false ∧ s'.rds.grp[1].toNat / 4096 = 2 ∧ (0 : Fin 16).val < s'.rds.grp[1].toNat % 16 ∧
      ¬ s'.rds.target.toNat ≤ s'.rds.rtq[(0 : Fin 16)].toNat) ∧
    (s''.rds.grp[1].getLsbD 10 = false ∧ s''.rds.grp[1].toNat / 4096 = 2 ∧
      s''.rds.grp[1].getLsbD 4 = s''.rds.rtp) := by
  refine ⟨⟨rfl, rfl, by decide, ?_⟩, ⟨rfl, rfl, by decide, by decide⟩, rfl, rfl, rfl⟩
  intro i h
  exact absurd h (Nat.not_lt_zero _)

theorem test_witness_RdsSettarget : (0 : BitVec 8).toNat = 0 ∧ 3 < (4 : BitVec 8).toNat ∧ 1 ≤ (1 : BitVec 8).toNat ∧
    (3 : BitVec 8).toNat ≤ 3 := by decide

theorem test_witness_RdsRender : 16 < (17 : BitVec 8).toNat ∧ (16 : BitVec 8).toNat ≤ 16 ∧
    (15 : Fin 16).val < (16 : BitVec 8).toNat := by decide

theorem test_witness_RdsObservations : 15 < (16 : BitVec 8).toNat ∧ (15 : Fin 16).val = (15 : BitVec 8).toNat := by decide

theorem test_witness_EncTake : 1 < (2 : BitVec 8).toNat ∧ (3 : BitVec 2) = 3 ∧
    (1 : Fin 2).val = (1 : BitVec 8).toNat ∧ (2 : BitVec 2) ≠ 3 := by decide

theorem test_witness_EncState : 1 < (2 : BitVec 8).toNat ∧ (1 : Fin 2).val = (1 : BitVec 8).toNat := by decide

theorem test_witness_EncoderTransitionTable : (turning .idle).enc.unit[(1 : Fin 2)] = ⟨.idle, false, true, false⟩ ∧
    (turning .aKeyed).enc.unit[(1 : Fin 2)] = ⟨.aKeyed, false, true, false⟩ ∧
    (turning .bKeyed).enc.unit[(1 : Fin 2)] = ⟨.bKeyed, false, true, false⟩ := by decide

/-- Both edges with one stamp: the shortest turn, whatever `T_GLITCH` is. -/
theorem test_witness_ForwardTurn : let ins : List Input := [⟨9, .edge .a 1 true⟩, ⟨9, .edge .b 1 true⟩]
    let s : State := { turning .idle with env := { State.reset.env with inbox := ins } }
    s.env.rst = false ∧ s.env.waiting = [] ∧ s.fr.qt = none ∧ (∀ d, s.enc.gt = some d → 9 < d) ∧
    s.enc.unit[(1 : Fin 2)].st = .idle ∧ s.env.inbox = ⟨9, .edge .a 1 true⟩ :: ⟨9, .edge .b 1 true⟩ :: [] ∧
    s.env.now ≤ 9 ∧ 9 ≤ 9 ∧ 9 < 9 + Config.tGlitch := by
  refine ⟨rfl, rfl, rfl, ?_, rfl, rfl, by decide, by decide, ?_⟩
  · intro d h
    cases h
    decide
  · unfold Config.tGlitch
    omega

/-- The next input comes exactly when the timeout has passed. -/
theorem test_witness_UnfinishedTurn :
    let s : State := { turning .idle with env := { State.reset.env with
      inbox := [⟨9, .edge .b 1 true⟩, ⟨9 + Config.tGlitch, .edge .a 1 true⟩] } }
    Pin.b ≠ .push ∧ s.env.rst = false ∧ s.env.waiting = [] ∧ s.fr.qt = none ∧ (∀ d, s.enc.gt = some d → 9 < d) ∧
    s.enc.unit[(1 : Fin 2)].st = .idle ∧
    s.env.inbox = ⟨9, .edge .b 1 true⟩ :: [⟨9 + Config.tGlitch, .edge .a 1 true⟩] ∧ s.env.now ≤ 9 ∧
    (∀ i rest', [(⟨9 + Config.tGlitch, .edge .a 1 true⟩ : Input)] = i :: rest' → 9 + Config.tGlitch ≤ i.time) := by
  refine ⟨by decide, rfl, rfl, rfl, ?_, rfl, rfl, by decide, ?_⟩
  · intro d h
    cases h
    decide
  · intro i rest' h
    cases h
    exact Nat.le_refl _

/-- CR, NUL and a full buffer; LF; the last column; a byte inside a line. -/
theorem test_witness_RxByte : (0x0D : Byte) = 0x0D ∧ (0x00 : Byte) = 0x00 ∧ (framing 10 0).fr.curL.val = 10 ∧
    (framing 9 0).fr.curL.val < 10 ∧ (0x0A : Byte) ≠ 0x0D ∧ (0x0A : Byte) ≠ 0x00 ∧ (framing 9 49).fr.curC.val = 49 ∧
    (0x41 : Byte) ≠ 0x0D ∧ (0x41 : Byte) ≠ 0x00 ∧ (0x41 : Byte) ≠ 0x0A ∧ (framing 9 48).fr.curC.val ≠ 49 := by decide

/-- LF on the last line, and a last column filled, with nothing to follow. -/
theorem test_witness_ClosedLine :
    let s : State := { framing 9 0 with env := { State.reset.env with inbox := [⟨9, .rx 0x0A⟩] } }
    let s' : State := { framing 9 49 with env := { State.reset.env with inbox := [⟨9, .rx 0x41⟩] } }
    (s.env.rst = false ∧ s.env.waiting = [] ∧ s.enc.gt = none ∧ (∀ d, s.fr.qt = some d → 9 < d) ∧
      s.fr.curL.val < 10 ∧ s.env.inbox = ⟨9, .rx 0x0A⟩ :: [] ∧ s.env.now ≤ 9) ∧
    (s'.env.rst = false ∧ s'.env.waiting = [] ∧ s'.enc.gt = none ∧ (∀ d, s'.fr.qt = some d → 9 < d) ∧
      s'.fr.curL.val < 10 ∧ s'.fr.curC.val = 49 ∧ s'.env.inbox = ⟨9, .rx 0x41⟩ :: [] ∧ s'.env.now ≤ 9) ∧
    (0x0A : Byte) ≠ 0x0D ∧ (0x0A : Byte) ≠ 0x00 ∧ (0x41 : Byte) ≠ 0x0D ∧ (0x41 : Byte) ≠ 0x00 ∧
    (∀ i rest', ([] : List Input) = i :: rest' → 9 + Config.tQuiet ≤ i.time) := by
  refine ⟨⟨rfl, rfl, rfl, ?_, by decide, rfl, by decide⟩, ⟨rfl, rfl, rfl, ?_, by decide, by decide, rfl, by decide⟩,
    by decide, by decide, by decide, by decide, ?_⟩
  · intro d h
    cases h
    decide
  · intro d h
    cases h
    decide
  · intro i rest' h
    cases h

theorem test_witness_FrGetline : 9 < (10 : BitVec 8).toNat ∧ (9 : Fin 10).val = (9 : BitVec 8).toNat ∧
    (1 : Fin 50).val < 2 := by decide

/-- The framer after "A": one byte in the open line. -/
def oneByte : Framer :=
  { Framer.reset with
    line := Framer.reset.line.set 0 ((Vector.replicate 50 0).set 0 0x41)
    len := Framer.reset.len.set 0 1
    curC := 1 }

theorem oneByte_inv : FramerInv oneByte := by
  constructor <;> decide

theorem test_witness_FramerInvariants : FramerInv oneByte ∧
    ∃ t, step { withInput 7 (.rx 0x0A) with fr := oneByte } = .next t := ⟨oneByte_inv, _, rfl⟩

/-- A state in the middle of a turn and of a read. -/
theorem test_witness_Invariant :
    let s : State := { busyState (.rx 0x42) with enc := (turning .bKeyed).enc, fr := oneByte }
    s.Inv ∧ ∃ t, step s = .next t := by
  refine ⟨⟨oneByte_inv, ⟨by decide, by decide⟩, rfl, ?_, ?_, ⟨?_, ?_⟩, ?_, by decide⟩, _, rfl⟩
  · intro t h
    cases h
    exact ⟨by decide, by decide, by decide, by decide⟩
  · intro e _
    rfl
  · intro d h
    cases h
    decide
  · intro d h
    cases h
  · intro h
    cases h

end Sys2Proof.Tests
end

section
/-!
PROOFS. A timer that is due first is the next step (spec/49_system.md R263, spec/20_memory.md R84).
-/

namespace Sys2Proof.Machine

/-- The glitch timer fires when its deadline is reached and lies before the quiet timer's (R263). -/
theorem State.firing_glitch (s : State) (d : Nat) (hd : reached s.pendingStamp d = true) (hg : s.enc.gt = some d)
    (hq : ∀ d', s.fr.qt = some d' → d < d') : s.firing = some (.glitch, d) := by
  cases hqt : s.fr.qt with
  | none => simp [State.firing, Option.filter, hg, hqt, hd]
  | some d' =>
    have hlt : d < d' := hq d' hqt
    cases hd' : reached s.pendingStamp d' <;> simp [State.firing, Option.filter, hg, hqt, hd, hd', hlt]

/-- The quiet timer fires when its deadline is reached and lies before the glitch timer's (R263). -/
theorem State.firing_quiet (s : State) (d : Nat) (hd : reached s.pendingStamp d = true) (hq : s.fr.qt = some d)
    (hg : ∀ d', s.enc.gt = some d' → d < d') : s.firing = some (.quiet, d) := by
  cases hgt : s.enc.gt with
  | none => simp [State.firing, Option.filter, hq, hgt, hd]
  | some d' =>
    have hlt : d < d' := hg d' hgt
    cases hd' : reached s.pendingStamp d' <;>
      simp [State.firing, Option.filter, hq, hgt, hd, hd', hlt, Nat.lt_asymm hlt]

/-- A timer that fires at a deadline that is not past raises its event word at that time (R16, R262). -/
theorem step_of_firing (s : State) (t : TimerId) (d : Nat) (h : s.firing = some (t, d)) (hnow : s.env.now ≤ d) :
    step s = runEvent t.word { s with env := { s.env with now := d } } := by
  simp [step, advance, State.activity, h, s.stamped_of_le d hnow]

/-- An armed timer whose deadline is reached, and lies before the other timer's, is the next step: its expiry runs at
the deadline (R263). -/
theorem step_first_timer (s : State) (d : Nat) (hd : reached s.pendingStamp d = true) (hnow : s.env.now ≤ d) :
    (s.enc.gt = some d → (∀ d', s.fr.qt = some d' → d < d') →
      step s = exec .evGlitchExpire { s with env := { s.env with now := d } }) ∧
    (s.fr.qt = some d → (∀ d', s.enc.gt = some d' → d < d') →
      step s = exec .evQuietExpire { s with env := { s.env with now := d } }) :=
  ⟨fun hg hq => (step_of_firing s _ d (s.firing_glitch d hd hg hq) hnow).trans (runEvent_glitch _),
    fun hq hg => (step_of_firing s _ d (s.firing_quiet d hd hq hg) hnow).trans (runEvent_quiet _)⟩

/-- With nothing to come the pending step has no stamp. -/
theorem State.pendingStamp_none (s : State) (hi : s.env.inbox = []) (hw : s.env.waiting = []) :
    s.pendingStamp = none := by
  cases hf : s.portFree <;> simp [State.pendingStamp, State.pending, hi, hw, hf]

end Sys2Proof.Machine

open Sys2Proof Sys2Proof.Machine

/-- Settles O9: the pending step is the input's, so its stamp reaches the deadline. -/
theorem dueTimerFiresBeforeTheInput : Obligations.DueTimerFiresBeforeTheInput := by
  intro s i rest d hport hinbox hnow hdue
  have hstamp : s.pendingStamp = some (max s.env.now i.time) := by
    simp [State.pendingStamp, s.pending_deliver i rest hport hinbox]
  exact step_first_timer s d (by rw [hstamp]; exact decide_eq_true hdue) hnow

/-- Settles O10: with no pending step every deadline is reached. -/
theorem timerFiresWithNothingToCome : Obligations.TimerFiresWithNothingToCome := by
  intro s d hinbox hwaiting hnow
  exact step_first_timer s d (by rw [s.pendingStamp_none hinbox hwaiting]; rfl) hnow

/-- Settles O47: the expiry is `EncUnit.expire`, which rewrites each encoder's state alone. -/
theorem glitchExpiryReturnsBothToIdle : Obligations.GlitchExpiryReturnsBothToIdle :=
  fun s => ⟨{ s with enc := s.enc.expire }, rfl, s.enc.expire_unit, rfl, rfl⟩

/-- Settles O51: the expiry writes `READY` and the timer alone. -/
theorem quietExpirySetsReady : Obligations.QuietExpirySetsReady :=
  fun s => ⟨{ s with fr := { s.fr with ready := true, qt := none } }, rfl, rfl, rfl, rfl⟩

end

section
/-!
PROOFS. What one instruction can do, said once (spec/00_scope.md R2, R12, R13; spec/49_system.md R260): it acts on one
unit, and what it leaves there and how it ends are functions of that unit and the time. The frame of an instruction,
the precision of its errors and the independence of the units are read off this inversion.
-/

namespace Sys2Proof.Machine

/-! ### How an instruction ends -/

/-- How an instruction ends: an event in silence, a command in a response or in a posted bus transfer (R104, R260). -/
inductive Ending where
  | silent
  | response (r : Response)
  | transfer (x : Transfer)

/-- The response record of an ending, if it has one. -/
def Ending.record : Ending → List Response
  | .response r => [r]
  | _ => []

/-- The state in which an instruction that has made its changes ends. -/
def State.endIn (s : State) : Ending → State
  | .silent => s
  | .response r => s.respond r.status r.value r.bytes
  | .transfer x => s.post x

@[simp] theorem State.endIn_br (s : State) (e : Ending) : (s.endIn e).br = s.br := by cases e <;> rfl
@[simp] theorem State.endIn_rds (s : State) (e : Ending) : (s.endIn e).rds = s.rds := by cases e <;> rfl
@[simp] theorem State.endIn_enc (s : State) (e : Ending) : (s.endIn e).enc = s.enc := by cases e <;> rfl
@[simp] theorem State.endIn_fr (s : State) (e : Ending) : (s.endIn e).fr = s.fr := by cases e <;> rfl

@[simp] theorem State.endIn_out (s : State) (e : Ending) : (s.endIn e).env.out = s.env.out ++ e.record := by
  cases e with
  | silent => exact (List.append_nil _).symm
  | response r => rfl
  | transfer x => exact (List.append_nil _).symm

/-- Equal endings keep equal outstanding transfers equal. -/
theorem State.endIn_xfer_congr (s s' : State) (e : Ending) (h : s.xfer = s'.xfer) :
    (s.endIn e).xfer = (s'.endIn e).xfer := by
  cases e with
  | silent => exact h
  | response r => exact h
  | transfer x => rfl

/-- Two steps that append the same records emit the same response. -/
theorem SameRecord.of_out {s t s' t' : State} (l : List Response) (h : t.env.out = s.env.out ++ l)
    (h' : t'.env.out = s'.env.out ++ l) : SameRecord s t s' t' := fun r => by
  rw [h, h', List.append_right_inj, List.append_right_inj]

/-! ### The parts of the block -/

/-- One unit's place in the state (R2). -/
structure Part (α : Type) where
  get : State → α
  put : State → α → State
  /-- Putting back what a unit holds changes nothing. -/
  put_get : ∀ s, put s (get s) = s
  /-- No unit holds the environment. -/
  put_env : ∀ s a, (put s a).env = s.env
  /-- No unit holds the posted transfer. -/
  put_xfer : ∀ s a, (put s a).xfer = s.xfer

@[simps] def Part.bridge : Part Bridge where
  get := State.br
  put s b := { s with br := b }
  put_get _ := rfl
  put_env _ _ := rfl
  put_xfer _ _ := rfl

@[simps] def Part.assembler : Part Rds where
  get := State.rds
  put s r := { s with rds := r }
  put_get _ := rfl
  put_env _ _ := rfl
  put_xfer _ _ := rfl

@[simps] def Part.debouncer : Part EncUnit where
  get := State.enc
  put s u := { s with enc := u }
  put_get _ := rfl
  put_env _ _ := rfl
  put_xfer _ _ := rfl

@[simps] def Part.framer : Part Framer where
  get := State.fr
  put s f := { s with fr := f }
  put_get _ := rfl
  put_env _ _ := rfl
  put_xfer _ _ := rfl

/-! ### Acting on one part -/

variable {α : Type} {p : Part α} {F G : State → Host.Outcome State Fault Refusal}

/-- An action is precise: when it answers with an error, the unit is as it was and the response is empty (R13). -/
def Precise (f : Nat → α → α × Ending) : Prop :=
  ∀ now a r, (f now a).2 = .response r → r.status ≠ .ok → (f now a).1 = a ∧ r.value = 0 ∧ r.bytes = []

/-- The meaning `F`, where it is not refused, is a precise action of the time on one unit. -/
def ActsOn (p : Part α) (F : State → Host.Outcome State Fault Refusal) : Prop :=
  ∃ f : Nat → α → α × Ending, Precise f ∧
    ∀ s t, F s = .next t → t = (p.put s (f s.env.now (p.get s)).1).endIn (f s.env.now (p.get s)).2

/-- A meaning that always raises the error `e` (R13). -/
theorem ActsOn.raise (e : Status) : ActsOn p fun s => .next (s.raise e) := by
  refine ⟨fun _ a => (a, .response ⟨e, 0, []⟩), fun now a r h _ => ?_, fun s t h => ?_⟩
  · cases h
    exact ⟨rfl, rfl, rfl⟩
  · cases h
    rw [p.put_get]
    rfl

/-- A meaning that writes the unit and answers `OK` from it. -/
theorem ActsOn.respond (g : α → α) (v : α → Word) (bs : α → List Byte) :
    ActsOn p fun s => .next ((p.put s (g (p.get s))).respond .ok (v (p.get s)) (bs (p.get s))) := by
  refine ⟨fun _ a => (g a, .response ⟨.ok, v a, bs a⟩), fun now a r h hr => ?_, fun s t h => ?_⟩
  · cases h
    exact absurd rfl hr
  · cases h
    rfl

/-- A meaning that writes the unit in silence. -/
theorem ActsOn.event (g : Nat → α → α) : ActsOn p fun s => .next (p.put s (g s.env.now (p.get s))) := by
  refine ⟨fun now a => (g now a, .silent), fun now a r h => ?_, fun s t h => ?_⟩
  · cases h
  · cases h
    rfl

/-- A meaning that posts a transfer made from the unit. -/
theorem ActsOn.post (x : α → Transfer) : ActsOn p fun s => .next (s.post (x (p.get s))) := by
  refine ⟨fun _ a => (a, .transfer (x a)), fun now a r h => ?_, fun s t h => ?_⟩
  · cases h
  · cases h
    rw [p.put_get]
    rfl

/-- A refusal does nothing. -/
theorem ActsOn.refused (r : Refusal) : ActsOn p fun _ => .refused r :=
  ⟨fun _ a => (a, .silent), fun _ _ _ h => (nomatch h), fun _ _ h => (nomatch h)⟩

/-- A choice on the operands alone. -/
theorem ActsOn.ite {c : Prop} [Decidable c] (hF : ActsOn p F) (hG : ActsOn p G) :
    ActsOn p fun s => if c then F s else G s := by
  by_cases h : c
  · simpa only [h, if_true] using hF
  · simpa only [h, if_false] using hG

/-! ### Every instruction acts on the unit its `UNIT` field names -/

theorem execBrRead_actsOn (count : BitVec 8) : ActsOn .bridge (execBrRead count) :=
  .ite (.raise _) (.ite
    (.respond (p := .bridge) (fun b => { b with res := newRes count.toNat [] }) (fun _ => _) (fun _ => []))
    (.post (p := .bridge) fun _ => _))

theorem execBrWrite_actsOn (ub : BitVec 8) : ActsOn .bridge (execBrWrite ub) :=
  .ite (.raise _) (.post (p := .bridge) fun b => .write Config.busAddr (writeData b.wimg ub.toNat))

theorem execBrSetimg_actsOn (addr : BitVec 8) (word : Word) : ActsOn .bridge (execBrSetimg addr word) :=
  .ite (.raise _)
    (.respond (p := .bridge) (fun b => { b with wimg := wr b.wimg addr.toNat word }) (fun _ => 0) fun _ => [])

theorem execBrGetres_actsOn (addr : BitVec 8) : ActsOn .bridge (execBrGetres addr) :=
  .ite (.raise _) (.respond (p := .bridge) id (fun b => rd 0 b.res addr.toNat) fun _ => [])

theorem execBrGetimg_actsOn (addr : BitVec 8) : ActsOn .bridge (execBrGetimg addr) :=
  .ite (.raise _) (.respond (p := .bridge) id (fun b => rd 0 b.wimg addr.toNat) fun _ => [])

theorem execRdsLoadblk_actsOn (blk : BitVec 8) (word : Word) : ActsOn .assembler (execRdsLoadblk blk word) :=
  .ite (.raise _)
    (.respond (p := .assembler) (fun r => { r with grp := wr r.grp blk.toNat word }) (fun _ => 0) fun _ => [])

theorem execRdsProcess_actsOn : ActsOn .assembler execRdsProcess :=
  .respond (p := .assembler) (fun r => r.process.1) (fun r => r.process.2) fun _ => []

theorem execRdsSettarget_actsOn (tq : BitVec 8) : ActsOn .assembler (execRdsSettarget tq) :=
  .ite (.raise _)
    (.respond (p := .assembler) (fun r => { r with target := tq.setWidth 2 }) (fun _ => 0) fun _ => [])

theorem execRdsRender_actsOn (len : BitVec 8) (q : BitVec 2) : ActsOn .assembler (execRdsRender len q) :=
  .ite (.raise _) (.respond (p := .assembler) id (fun _ => len.setWidth 16)
    fun r => (List.range len.toNat).flatMap (r.renderSlot q))

theorem execRdsGetps_actsOn : ActsOn .assembler execRdsGetps :=
  .respond (p := .assembler) id (fun _ => 0) fun r => r.ps.toList

theorem execRdsClear_actsOn : ActsOn .assembler execRdsClear :=
  .respond (p := .assembler) Rds.clear (fun _ => 0) fun _ => []

theorem execRdsGetslot_actsOn (slot : BitVec 8) : ActsOn .assembler (execRdsGetslot slot) :=
  .ite (.raise _) (.respond (p := .assembler) id (fun r => (rd 0 r.rtq slot.toNat).setWidth 16)
    fun r => (rd (Vector.replicate 4 0) r.rtc slot.toNat).toList)

theorem execRdsGetstate_actsOn : ActsOn .assembler execRdsGetstate :=
  .respond (p := .assembler) id rdsStateWord fun _ => []

theorem execEncTake_actsOn (enc : BitVec 8) (k : BitVec 2) : ActsOn .debouncer (execEncTake enc k) := by
  unfold execEncTake
  cases encIndex enc with
  | none => exact .raise _
  | some e =>
    exact .ite (.raise _) (.respond (p := .debouncer) (fun u => u.put e (u.unit[e].taken k))
      (fun u => flagWord (u.unit[e].token k)) fun _ => [])

theorem execEncState_actsOn (enc : BitVec 8) : ActsOn .debouncer (execEncState enc) := by
  unfold execEncState
  cases encIndex enc with
  | none => exact .raise _
  | some e => exact .respond (p := .debouncer) id (fun u => encStateWord u.unit[e] u.gt.isSome) fun _ => []

theorem execEvPina_actsOn (enc : BitVec 8) : ActsOn .debouncer (execEvPina enc) := by
  unfold execEvPina
  cases encIndex enc with
  | none => exact .refused _
  | some e => exact .event (p := .debouncer) fun now u => u.pinA now e

theorem execEvPinb_actsOn (enc : BitVec 8) : ActsOn .debouncer (execEvPinb enc) := by
  unfold execEvPinb
  cases encIndex enc with
  | none => exact .refused _
  | some e => exact .event (p := .debouncer) fun now u => u.pinB now e

theorem execEvPush_actsOn (enc : BitVec 8) : ActsOn .debouncer (execEvPush enc) := by
  unfold execEvPush
  cases encIndex enc with
  | none => exact .refused _
  | some e => exact .event (p := .debouncer) fun _ u => u.pushed e

theorem execEvGlitchExpire_actsOn : ActsOn .debouncer execEvGlitchExpire :=
  .event (p := .debouncer) fun _ => EncUnit.expire

theorem execFrTakeready_actsOn : ActsOn .framer execFrTakeready :=
  .respond (p := .framer) (fun f => { f with ready := false }) (fun f => flagWord f.ready) fun _ => []

theorem execFrGetline_actsOn (line : BitVec 8) : ActsOn .framer (execFrGetline line) :=
  .ite (.raise _) (.respond (p := .framer) id (fun f => BitVec.ofNat 16 (rd 0 f.len line.toNat).val)
    fun f => f.lineBytes line.toNat)

theorem execFrClear_actsOn : ActsOn .framer execFrClear :=
  .respond (p := .framer) Framer.clear (fun _ => 0) fun _ => []

theorem execFrState_actsOn : ActsOn .framer execFrState :=
  .respond (p := .framer) id frStateWord fun _ => []

theorem execEvRxbyte_actsOn (b : Byte) : ActsOn .framer (execEvRxbyte b) :=
  .event (p := .framer) fun now f => f.rx now b

theorem execEvQuietExpire_actsOn : ActsOn .framer execEvQuietExpire :=
  .event (p := .framer) fun _ f => { f with ready := true, qt := none }

/-- The `UNIT` field of an instruction's word (R100). -/
def unitOf (i : Instr) : BitVec 4 := (encode i).extractLsb' 28 4

/-- What one instruction can be (R2, R106): a `SYS` command, or an action on the one unit that its `UNIT` field
names. -/
theorem exec_cases (i : Instr) :
    (unitOf i = 0 ∧ (i = .sysNop ∨ i = .sysReset)) ∨
    (unitOf i = 1 ∧ ActsOn .bridge (exec i)) ∨
    (unitOf i = 2 ∧ ActsOn .assembler (exec i)) ∨
    (unitOf i = 3 ∧ ActsOn .debouncer (exec i)) ∨
    (unitOf i = 4 ∧ ActsOn .framer (exec i)) := by
  cases i with
  | sysNop => exact .inl ⟨unit_pack .., .inl rfl⟩
  | sysReset => exact .inl ⟨unit_pack .., .inr rfl⟩
  | brRead count => exact .inr (.inl ⟨unit_pack .., execBrRead_actsOn count⟩)
  | brWrite ub => exact .inr (.inl ⟨unit_pack .., execBrWrite_actsOn ub⟩)
  | brSetimg addr word => exact .inr (.inl ⟨unit_pack .., execBrSetimg_actsOn addr word⟩)
  | brGetres addr => exact .inr (.inl ⟨unit_pack .., execBrGetres_actsOn addr⟩)
  | brGetimg addr => exact .inr (.inl ⟨unit_pack .., execBrGetimg_actsOn addr⟩)
  | rdsLoadblk blk word => exact .inr (.inr (.inl ⟨unit_pack .., execRdsLoadblk_actsOn blk word⟩))
  | rdsProcess => exact .inr (.inr (.inl ⟨unit_pack .., execRdsProcess_actsOn⟩))
  | rdsSettarget tq => exact .inr (.inr (.inl ⟨unit_pack .., execRdsSettarget_actsOn tq⟩))
  | rdsRender len q => exact .inr (.inr (.inl ⟨unit_pack .., execRdsRender_actsOn len q⟩))
  | rdsGetps => exact .inr (.inr (.inl ⟨unit_pack .., execRdsGetps_actsOn⟩))
  | rdsClear => exact .inr (.inr (.inl ⟨unit_pack .., execRdsClear_actsOn⟩))
  | rdsGetslot slot => exact .inr (.inr (.inl ⟨unit_pack .., execRdsGetslot_actsOn slot⟩))
  | rdsGetstate => exact .inr (.inr (.inl ⟨unit_pack .., execRdsGetstate_actsOn⟩))
  | encTake enc k => exact .inr (.inr (.inr (.inl ⟨unit_pack .., execEncTake_actsOn enc k⟩)))
  | encState enc => exact .inr (.inr (.inr (.inl ⟨unit_pack .., execEncState_actsOn enc⟩)))
  | evPina enc => exact .inr (.inr (.inr (.inl ⟨unit_pack .., execEvPina_actsOn enc⟩)))
  | evPinb enc => exact .inr (.inr (.inr (.inl ⟨unit_pack .., execEvPinb_actsOn enc⟩)))
  | evPush enc => exact .inr (.inr (.inr (.inl ⟨unit_pack .., execEvPush_actsOn enc⟩)))
  | evGlitchExpire => exact .inr (.inr (.inr (.inl ⟨unit_pack .., execEvGlitchExpire_actsOn⟩)))
  | frTakeready => exact .inr (.inr (.inr (.inr ⟨unit_pack .., execFrTakeready_actsOn⟩)))
  | frGetline line => exact .inr (.inr (.inr (.inr ⟨unit_pack .., execFrGetline_actsOn line⟩)))
  | frClear => exact .inr (.inr (.inr (.inr ⟨unit_pack .., execFrClear_actsOn⟩)))
  | frState => exact .inr (.inr (.inr (.inr ⟨unit_pack .., execFrState_actsOn⟩)))
  | evRxbyte b => exact .inr (.inr (.inr (.inr ⟨unit_pack .., execEvRxbyte_actsOn b⟩)))
  | evQuietExpire => exact .inr (.inr (.inr (.inr ⟨unit_pack .., execEvQuietExpire_actsOn⟩)))

/-! ### Errors -/

/-- An error of an action leaves nothing behind but its empty response (R13, R285). -/
theorem ActsOn.error_stateless (h : ActsOn p F) {s t : State} {r : Response} (ht : F s = .next t)
    (hout : t.env.out = s.env.out ++ [r]) (herr : r.status ≠ .ok) :
    r.value = 0 ∧ r.bytes = [] ∧ SameUnits s t ∧ t.xfer = s.xfer := by
  obtain ⟨f, precise, step⟩ := h
  have hstep := step s t ht
  have hrec : (f s.env.now (p.get s)).2.record = [r] := by
    rwa [hstep, State.endIn_out, p.put_env, List.append_right_inj] at hout
  have hend : (f s.env.now (p.get s)).2 = .response r := by
    cases he : (f s.env.now (p.get s)).2 with
    | silent => simp [he, Ending.record] at hrec
    | transfer x => simp [he, Ending.record] at hrec
    | response r' => simpa [he, Ending.record] using hrec
  obtain ⟨hsame, hvalue, hbytes⟩ := precise _ _ r hend herr
  rw [hsame, hend, p.put_get] at hstep
  subst hstep
  exact ⟨hvalue, hbytes, ⟨rfl, rfl, rfl, rfl⟩, rfl⟩

end Sys2Proof.Machine

open Sys2Proof Sys2Proof.Machine

/-- Settles O21: a `SYS` command answers `OK`, and the action of any other instruction is precise. -/
theorem errorsAreStateless : Obligations.ErrorsAreStateless := by
  intro i s t r ht hout herr
  have ok_of_sys : ∀ u : State, t = u.respond .ok 0 [] → u.env = s.env → r.status = .ok := by
    intro u hu henv
    rw [hu, State.respond_out, henv, List.append_right_inj] at hout
    cases hout
    rfl
  rcases exec_cases i with ⟨_, rfl | rfl⟩ | ⟨_, h⟩ | ⟨_, h⟩ | ⟨_, h⟩ | ⟨_, h⟩
  · cases ht
    exact absurd (ok_of_sys s rfl rfl) herr
  · cases ht
    exact absurd (ok_of_sys s.resetBlock rfl rfl) herr
  · exact h.error_stateless ht hout herr
  · exact h.error_stateless ht hout herr
  · exact h.error_stateless ht hout herr
  · exact h.error_stateless ht hout herr

end

section
/-!
PROOFS. The units do not interfere (spec/00_scope.md R2): two runs of one instruction, or of one bus answer, compared.
-/

namespace Sys2Proof.Machine

variable {α : Type} {p : Part α} {F : State → Host.Outcome State Fault Refusal}

/-! ### Instructions -/

/-- Two runs of an action at one time: where the unit is the same, so are its new content and the ending. -/
theorem ActsOn.two_runs (h : ActsOn p F) {s s' t t' : State} (ht : F s = .next t) (ht' : F s' = .next t')
    (hnow : s.env.now = s'.env.now) : ∃ a e a' e', t = (p.put s a).endIn e ∧ t' = (p.put s' a').endIn e' ∧
      (p.get s = p.get s' → a = a' ∧ e = e') := by
  obtain ⟨f, _, step⟩ := h
  exact ⟨_, _, _, _, step s t ht, step s' t' ht', fun hget => by rw [hnow, hget]; exact ⟨rfl, rfl⟩⟩

/-- Two runs from the same content of the unit that end alike emit the same response and post the same transfer. -/
theorem Part.same_ending (p : Part α) (s s' : State) (a a' : α) (e : Ending) :
    SameRecord s ((p.put s a).endIn e) s' ((p.put s' a').endIn e) ∧
      (s.xfer = s'.xfer → ((p.put s a).endIn e).xfer = ((p.put s' a').endIn e).xfer) := by
  refine ⟨.of_out e.record ?_ ?_, fun hx => State.endIn_xfer_congr _ _ e ?_⟩
  · rw [State.endIn_out, p.put_env]
  · rw [State.endIn_out, p.put_env]
  · rw [p.put_xfer, p.put_xfer, hx]

/-- The meaning `F` of an instruction of unit `unit` is isolated (R2): each unit's new content depends on its old one
and the time; units 1 to 4 write no other unit; the response and the transfer depend on the instruction's own unit. -/
def Isolated (unit : BitVec 4) (F : State → Host.Outcome State Fault Refusal) : Prop :=
  ∀ s s' t t' : State, F s = .next t → F s' = .next t' → s.env.now = s'.env.now →
    ((s.br = s'.br → t.br = t'.br) ∧ (s.rds = s'.rds → t.rds = t'.rds) ∧
      (s.enc = s'.enc → t.enc = t'.enc) ∧ (s.fr = s'.fr → t.fr = t'.fr)) ∧
    (unit ≠ 0 → (unit ≠ 1 → t.br = s.br) ∧ (unit ≠ 2 → t.rds = s.rds) ∧
      (unit ≠ 3 → t.enc = s.enc) ∧ (unit ≠ 4 → t.fr = s.fr)) ∧
    ((unit = 1 → s.br = s'.br) → (unit = 2 → s.rds = s'.rds) → (unit = 3 → s.enc = s'.enc) →
      (unit = 4 → s.fr = s'.fr) → SameRecord s t s' t' ∧ (s.xfer = s'.xfer → t.xfer = t'.xfer))

theorem ActsOn.isolated_bridge (h : ActsOn .bridge F) : Isolated 1 F := by
  intro s s' t t' ht ht' hnow
  obtain ⟨a, e, a', e', rfl, rfl, same⟩ := h.two_runs ht ht' hnow
  refine ⟨⟨fun hu => by simp [(same hu).1], by simp⟩, by simp, fun own _ _ _ => ?_⟩
  rw [(same (own rfl)).2]
  exact Part.bridge.same_ending s s' a a' e'

theorem ActsOn.isolated_assembler (h : ActsOn .assembler F) : Isolated 2 F := by
  intro s s' t t' ht ht' hnow
  obtain ⟨a, e, a', e', rfl, rfl, same⟩ := h.two_runs ht ht' hnow
  refine ⟨⟨by simp, fun hu => by simp [(same hu).1], by simp⟩, by simp, fun _ own _ _ => ?_⟩
  rw [(same (own rfl)).2]
  exact Part.assembler.same_ending s s' a a' e'

theorem ActsOn.isolated_debouncer (h : ActsOn .debouncer F) : Isolated 3 F := by
  intro s s' t t' ht ht' hnow
  obtain ⟨a, e, a', e', rfl, rfl, same⟩ := h.two_runs ht ht' hnow
  refine ⟨⟨by simp, by simp, fun hu => by simp [(same hu).1], by simp⟩, by simp, fun _ _ own _ => ?_⟩
  rw [(same (own rfl)).2]
  exact Part.debouncer.same_ending s s' a a' e'

theorem ActsOn.isolated_framer (h : ActsOn .framer F) : Isolated 4 F := by
  intro s s' t t' ht ht' hnow
  obtain ⟨a, e, a', e', rfl, rfl, same⟩ := h.two_runs ht ht' hnow
  refine ⟨⟨by simp, by simp, by simp, fun hu => by simp [(same hu).1]⟩, by simp, fun _ _ _ own => ?_⟩
  rw [(same (own rfl)).2]
  exact Part.framer.same_ending s s' a a' e'

/-- `SYS_NOP` leaves every unit and answers the same whatever they hold (R266). -/
theorem execSysNop_isolated : Isolated 0 execSysNop := by
  intro s s' t t' ht ht' _
  cases ht
  cases ht'
  exact ⟨⟨id, id, id, id⟩, fun h => absurd rfl h, fun _ _ _ _ => ⟨.of_out [⟨.ok, 0, []⟩] rfl rfl, id⟩⟩

/-- `SYS_RESET` leaves the same block and answers the same whatever the units hold (R267). -/
theorem execSysReset_isolated : Isolated 0 execSysReset := by
  intro s s' t t' ht ht' _
  cases ht
  cases ht'
  exact ⟨⟨fun _ => rfl, fun _ => rfl, fun _ => rfl, fun _ => rfl⟩, fun h => absurd rfl h,
    fun _ _ _ _ => ⟨.of_out [⟨.ok, 0, []⟩] rfl rfl, fun _ => rfl⟩⟩

/-- Every instruction is isolated in the unit that its `UNIT` field names (R2). -/
theorem exec_isolated (i : Instr) : Isolated (unitOf i) (exec i) := by
  rcases exec_cases i with ⟨hu, rfl | rfl⟩ | ⟨hu, h⟩ | ⟨hu, h⟩ | ⟨hu, h⟩ | ⟨hu, h⟩ <;> rw [hu]
  · exact execSysNop_isolated
  · exact execSysReset_isolated
  · exact h.isolated_bridge
  · exact h.isolated_assembler
  · exact h.isolated_debouncer
  · exact h.isolated_framer

/-! ### Bus answers -/

/-- The end of a bus command whose transfer is over: the bridge rewritten by `g`, and the response `r` (R131, R132). -/
def State.complete (s : State) (g : Bridge → Bridge) (r : Response) : State :=
  { s with br := g s.br, xfer := none }.respond r.status r.value r.bytes

/-- What a bus answer to the `nr`-th transfer does is settled by the transfer it finds outstanding: it is ignored, or
it completes the bridge command, keeping the write image (R131, R132, R261). -/
def SettledByTransfer (nr : Nat) (answer : State → State) : Prop :=
  ∀ x : Option Transfer, (∀ s : State, s.answering nr = x → answer s = s) ∨
    ∃ g r, (∀ b : Bridge, (g b).wimg = b.wimg) ∧ ∀ s : State, s.answering nr = x → answer s = s.complete g r

theorem busData_settled (nr : Nat) (data : List Byte) : SettledByTransfer nr (busData nr data) := by
  intro x
  rcases x with _ | ⟨dev, count, n⟩ | ⟨dev, written⟩
  · exact .inl fun s hs => busData_ignored s nr data fun _ _ _ h => nomatch hs.symm.trans h
  · by_cases hlen : data.length = n
    · refine .inr ⟨fun b => { b with res := newRes count data },
        ⟨.ok, BitVec.ofNat 16 (readWords count), []⟩, fun _ => rfl, fun s hs => ?_⟩
      rw [busData_read s nr dev count n data hs, if_pos hlen]
      rfl
    · refine .inr ⟨id, ⟨.busError, 0, []⟩, fun _ => rfl, fun s hs => ?_⟩
      rw [busData_read s nr dev count n data hs, if_neg hlen]
      rfl
  · exact .inl fun s hs => busData_ignored s nr data fun _ _ _ h => nomatch hs.symm.trans h

theorem busCount_settled (nr m : Nat) : SettledByTransfer nr (busCount nr m) := by
  intro x
  rcases x with _ | ⟨dev, count, n⟩ | ⟨dev, written⟩
  · exact .inl fun s hs => busCount_ignored s nr m fun _ _ h => nomatch hs.symm.trans h
  · exact .inl fun s hs => busCount_ignored s nr m fun _ _ h => nomatch hs.symm.trans h
  · by_cases hlen : m = written.length
    · refine .inr ⟨id, ⟨.ok, BitVec.ofNat 16 (written.length / 2), []⟩, fun _ => rfl, fun s hs => ?_⟩
      rw [busCount_write s nr dev m written hs, if_pos hlen]
      rfl
    · refine .inr ⟨id, ⟨.busError, 0, []⟩, fun _ => rfl, fun s hs => ?_⟩
      rw [busCount_write s nr dev m written hs, if_neg hlen]
      rfl

/-- Two states with the same transfers, by number, find the same transfer for an answer. -/
theorem State.answering_congr {s s' : State} (nr : Nat) (hposted : s.env.posted = s'.env.posted)
    (hx : s.xfer = s'.xfer) : s.answering nr = s'.answering nr := by
  simp only [State.answering, hposted, hx]

/-- A bus answer writes the bridge's result buffer at most, and what it does depends on the bridge and the transfer
alone (R2). -/
theorem SettledByTransfer.isolated {nr : Nat} {answer : State → State} (h : SettledByTransfer nr answer)
    {s s' : State} (hposted : s.env.posted = s'.env.posted) (hx : s.xfer = s'.xfer) :
    (answer s).rds = s.rds ∧ (answer s).enc = s.enc ∧ (answer s).fr = s.fr ∧ (answer s).br.wimg = s.br.wimg ∧
      (s.br = s'.br → (answer s).br = (answer s').br) ∧ (answer s).xfer = (answer s').xfer ∧
      SameRecord s (answer s) s' (answer s') := by
  have hsame := s.answering_congr nr hposted hx
  rcases h (s'.answering nr) with ignored | ⟨g, r, hwimg, completed⟩
  · rw [ignored s hsame, ignored s' rfl]
    exact ⟨rfl, rfl, rfl, rfl, id, hx, .of_out [] (List.append_nil _).symm (List.append_nil _).symm⟩
  · rw [completed s hsame, completed s' rfl]
    exact ⟨rfl, rfl, rfl, hwimg s.br, congrArg g, rfl, .of_out [r] rfl rfl⟩

end Sys2Proof.Machine

open Sys2Proof Sys2Proof.Machine

/-- Settles O23: every instruction is isolated in its unit, and a bus answer in the bridge. -/
theorem unitsDoNotInterfere : Obligations.UnitsDoNotInterfere := by
  refine ⟨exec_isolated, ?_⟩
  rintro x s s' t t' (⟨nr, data, rfl⟩ | ⟨nr, m, rfl⟩) ht ht' hposted hx
  · cases ht
    cases ht'
    exact (busData_settled nr data).isolated hposted hx
  · cases ht
    cases ht'
    exact (busCount_settled nr m).isolated hposted hx

end

section
/-!
PROOFS. What the meaning of one instruction does, said once with the operands that are legal (spec/30_encoding.md R106,
R107; spec/49_system.md R260): the writers of the buffers, the takes of the flags and the invariants of the machine
are read off this inversion.
-/

namespace Sys2Proof.Machine

/-- Everything one instruction can make of the state it runs in. -/
inductive Effect (s : State) : Instr → State → Prop
  /-- A command with an operand out of range (R107, R282). -/
  | rangeError {i : Instr} (command : i.isEvent = false) : Effect s i (s.raise .rangeError)
  /-- `SYS_NOP` (R266), or an observation command (R80). -/
  | answer {i : Instr} (command : i.isEvent = false) (value : Word) (bytes : List Byte) :
      Effect s i (s.respond .ok value bytes)
  | sysReset : Effect s .sysReset (s.resetBlock.respond .ok 0 [])
  /-- The `BR_READ` that moves no word completes at once (R131). -/
  | brReadNothing (count : BitVec 8) : Effect s (.brRead count)
      ({ s with br := { s.br with res := newRes count.toNat [] } }.respond .ok
        (BitVec.ofNat 16 (readWords count.toNat)) [])
  | brRead (count : BitVec 8) (x : Transfer) (legal : x.legal) : Effect s (.brRead count) (s.post x)
  | brWrite (ub : BitVec 8) (x : Transfer) (legal : x.legal) : Effect s (.brWrite ub) (s.post x)
  | brSetimg (addr : BitVec 8) (word : Word) : Effect s (.brSetimg addr word)
      ({ s with br := { s.br with wimg := wr s.br.wimg addr.toNat word } }.respond .ok 0 [])
  | rdsLoadblk (blk : BitVec 8) (word : Word) : Effect s (.rdsLoadblk blk word)
      ({ s with rds := { s.rds with grp := wr s.rds.grp blk.toNat word } }.respond .ok 0 [])
  | rdsProcess : Effect s .rdsProcess ({ s with rds := s.rds.process.1 }.respond .ok s.rds.process.2 [])
  | rdsSettarget (tq : BitVec 8) (legal : tq.setWidth 2 ≠ 0#2) : Effect s (.rdsSettarget tq)
      ({ s with rds := { s.rds with target := tq.setWidth 2 } }.respond .ok 0 [])
  | rdsClear : Effect s .rdsClear ({ s with rds := s.rds.clear }.respond .ok 0 [])
  | encTake (e : Fin 2) (k : BitVec 2) : Effect s (.encTake (BitVec.ofNat 8 e.val) k)
      ({ s with enc := s.enc.put e (s.enc.unit[e].taken k) }.respond .ok (flagWord (s.enc.unit[e].token k)) [])
  | evPina (e : Fin 2) : Effect s (.evPina (BitVec.ofNat 8 e.val)) { s with enc := s.enc.pinA s.env.now e }
  | evPinb (e : Fin 2) : Effect s (.evPinb (BitVec.ofNat 8 e.val)) { s with enc := s.enc.pinB s.env.now e }
  | evPush (e : Fin 2) : Effect s (.evPush (BitVec.ofNat 8 e.val)) { s with enc := s.enc.pushed e }
  | evGlitchExpire : Effect s .evGlitchExpire { s with enc := s.enc.expire }
  | frTakeready : Effect s .frTakeready
      ({ s with fr := { s.fr with ready := false } }.respond .ok (flagWord s.fr.ready) [])
  | frClear : Effect s .frClear ({ s with fr := s.fr.clear }.respond .ok 0 [])
  | evRxbyte (b : Byte) : Effect s (.evRxbyte b) { s with fr := s.fr.rx s.env.now b }
  | evQuietExpire : Effect s .evQuietExpire { s with fr := { s.fr with ready := true, qt := none } }

/-! ### Outcomes, by their branches -/

/-- Every next state of the outcome has the property; a refusal has none. -/
def Leads (o : Host.Outcome State Fault Refusal) (P : State → Prop) : Prop := ∀ t, o = .next t → P t

section

variable {P : State → Prop} {o o' : Host.Outcome State Fault Refusal}

theorem Leads.next {t : State} (h : P t) : Leads (.next t) P := fun _ ht => by
  cases ht
  exact h

theorem Leads.refused (r : Refusal) : Leads (.refused r) P := fun _ ht => nomatch ht

theorem Leads.ite {c : Prop} [Decidable c] (ho : c → Leads o P) (ho' : ¬c → Leads o' P) :
    Leads (if c then o else o') P := by
  split
  · exact ho ‹c›
  · exact ho' ‹¬c›

end

/-! ### Legal operands -/

/-- An `enc` operand in range is the number of its encoder (R107). -/
theorem encIndex_eq_ofNat {enc : BitVec 8} {e : Fin 2} (h : encIndex enc = some e) : enc = BitVec.ofNat 8 e.val := by
  have hval : enc.toNat = e.val := (encIndex_some enc e).mp h
  rw [← hval, BitVec.ofNat_toNat, BitVec.setWidth_eq]

/-- The transfer of a `BR_READ` that moves a word is legal (R131). -/
theorem Transfer.legal_read (dev count : Nat) (hcount : ¬(count < 1 ∨ 16 < count)) (hw : readWords count ≠ 0) :
    (Transfer.read dev count (2 * readWords count)).legal :=
  ⟨by omega, by omega, rfl, by omega⟩

/-- The transfer of a `BR_WRITE` moves the words from `WR_START` up to its bound (R132). -/
theorem Transfer.legal_write (dev : Nat) (wimg : Vector Word 16) (ub : Nat) (hub : ¬(ub < 0x02 ∨ 0x0F < ub)) :
    (Transfer.write dev (writeData wimg ub)).legal :=
  ⟨ub - 1, by omega, by omega, writeData_length wimg ub⟩

/-- A legal target quality is not 0 in the two bits that hold it (R40, R162). -/
theorem target_ne_zero (tq : BitVec 8) (h : ¬(tq.toNat < 1 ∨ 3 < tq.toNat)) : tq.setWidth 2 ≠ 0#2 := by
  intro h0
  have hval : tq.toNat % 4 = 0 := by simpa using congrArg BitVec.toNat h0
  omega

/-! ### The inversion -/

theorem execEncTake_leads (enc : BitVec 8) (k : BitVec 2) (s : State) :
    Leads (execEncTake enc k s) (Effect s (.encTake enc k)) := by
  unfold execEncTake
  split
  case h_1 => exact .next (.rangeError rfl)
  case h_2 e he =>
    cases encIndex_eq_ofNat he
    exact .ite (fun _ => .next (.rangeError rfl)) fun _ => .next (.encTake e k)

theorem execEncState_leads (enc : BitVec 8) (s : State) : Leads (execEncState enc s) (Effect s (.encState enc)) := by
  unfold execEncState
  split
  case h_1 => exact .next (.rangeError rfl)
  case h_2 => exact .next (.answer rfl _ _)

theorem execEvPina_leads (enc : BitVec 8) (s : State) : Leads (execEvPina enc s) (Effect s (.evPina enc)) := by
  unfold execEvPina
  split
  case h_1 => exact .refused _
  case h_2 e he =>
    cases encIndex_eq_ofNat he
    exact .next (.evPina e)

theorem execEvPinb_leads (enc : BitVec 8) (s : State) : Leads (execEvPinb enc s) (Effect s (.evPinb enc)) := by
  unfold execEvPinb
  split
  case h_1 => exact .refused _
  case h_2 e he =>
    cases encIndex_eq_ofNat he
    exact .next (.evPinb e)

theorem execEvPush_leads (enc : BitVec 8) (s : State) : Leads (execEvPush enc s) (Effect s (.evPush enc)) := by
  unfold execEvPush
  split
  case h_1 => exact .refused _
  case h_2 e he =>
    cases encIndex_eq_ofNat he
    exact .next (.evPush e)

/-- What one instruction does is one of the effects (R107). -/
theorem exec_leads (i : Instr) (s : State) : Leads (exec i s) (Effect s i) := by
  cases i with
  | sysNop => exact .next (.answer rfl _ _)
  | sysReset => exact .next .sysReset
  | brRead count =>
    exact .ite (fun _ => .next (.rangeError rfl)) fun hc => .ite (fun _ => .next (.brReadNothing count)) fun hw =>
      .next (.brRead count _ (Transfer.legal_read _ _ hc hw))
  | brWrite ub =>
    exact .ite (fun _ => .next (.rangeError rfl)) fun h =>
      .next (.brWrite ub _ (Transfer.legal_write _ _ _ h))
  | brSetimg addr word => exact .ite (fun _ => .next (.rangeError rfl)) fun _ => .next (.brSetimg addr word)
  | brGetres addr => exact .ite (fun _ => .next (.rangeError rfl)) fun _ => .next (.answer rfl _ _)
  | brGetimg addr => exact .ite (fun _ => .next (.rangeError rfl)) fun _ => .next (.answer rfl _ _)
  | rdsLoadblk blk word => exact .ite (fun _ => .next (.rangeError rfl)) fun _ => .next (.rdsLoadblk blk word)
  | rdsProcess => exact .next .rdsProcess
  | rdsSettarget tq =>
    exact .ite (fun _ => .next (.rangeError rfl)) fun h => .next (.rdsSettarget tq (target_ne_zero tq h))
  | rdsRender len q => exact .ite (fun _ => .next (.rangeError rfl)) fun _ => .next (.answer rfl _ _)
  | rdsGetps => exact .next (.answer rfl _ _)
  | rdsClear => exact .next .rdsClear
  | rdsGetslot slot => exact .ite (fun _ => .next (.rangeError rfl)) fun _ => .next (.answer rfl _ _)
  | rdsGetstate => exact .next (.answer rfl _ _)
  | encTake enc k => exact execEncTake_leads enc k s
  | encState enc => exact execEncState_leads enc s
  | evPina enc => exact execEvPina_leads enc s
  | evPinb enc => exact execEvPinb_leads enc s
  | evPush enc => exact execEvPush_leads enc s
  | evGlitchExpire => exact .next .evGlitchExpire
  | frTakeready => exact .next .frTakeready
  | frGetline line => exact .ite (fun _ => .next (.rangeError rfl)) fun _ => .next (.answer rfl _ _)
  | frClear => exact .next .frClear
  | frState => exact .next (.answer rfl _ _)
  | evRxbyte b => exact .next (.evRxbyte b)
  | evQuietExpire => exact .next .evQuietExpire

/-- The inversion of one instruction: its next state is one of its effects. -/
theorem exec_effect {i : Instr} {s t : State} (h : exec i s = .next t) : Effect s i t := exec_leads i s t h

end Sys2Proof.Machine
end

section
/-!
PROOFS. Who writes each buffer, and what clears each flag (spec/10_state.md R31 to R57), read off the inversion of one
instruction.
-/

namespace Sys2Proof.Machine

/-! ### The tokens of the encoders -/

/-- Every token that is set in `x` is set in `y` (R49). -/
structure Encoder.TokensKept (x y : Encoder) : Prop where
  fwd : x.fwd = true → y.fwd = true
  rev : x.rev = true → y.rev = true
  push : x.push = true → y.push = true

/-- The encoders after one of them is replaced. -/
theorem EncUnit.put_get (u : EncUnit) (e e' : Fin 2) (x : Encoder) :
    (u.put e x).unit[e'.val] = if e' = e then x else u.unit[e'.val] := by
  split
  case isTrue h => rw [h, EncUnit.put_self]
  case isFalse h => exact u.put_other e e' x h

/-- Replacing one encoder keeps the tokens of both when it keeps that one's. -/
theorem EncUnit.put_tokensKept (u : EncUnit) (e : Fin 2) (x : Encoder) (h : u.unit[e.val].TokensKept x) (e' : Fin 2) :
    u.unit[e'.val].TokensKept (u.put e x).unit[e'.val] := by
  rw [EncUnit.put_get]
  split
  case isTrue he => rwa [he]
  case isFalse => exact ⟨id, id, id⟩

/-- What an edge of pin A or pin B of encoder `e` makes of the unit (R202, R203): it keys that encoder and arms the
glitch timer, or it returns the encoder to `Idle`, the timer kept; it clears no token. -/
def EncUnit.Edge (u : EncUnit) (now : Nat) (e : Fin 2) (v : EncUnit) : Prop :=
  ∃ x, (v = { u.put e x with gt := armed now Config.tGlitch } ∨ v = u.put e x ∧ x.st = .idle) ∧
    u.unit[e.val].TokensKept x

theorem EncUnit.pinA_edge (u : EncUnit) (now : Nat) (e : Fin 2) : u.Edge now e (u.pinA now e) := by
  cases h : u.unit[e.val].st with
  | idle => exact ⟨_, .inl (u.pinA_idle now e h), ⟨id, id, id⟩⟩
  | aKeyed => exact ⟨_, .inr ⟨u.pinA_aKeyed now e h, rfl⟩, ⟨id, id, id⟩⟩
  | bKeyed => exact ⟨_, .inr ⟨u.pinA_bKeyed now e h, rfl⟩, ⟨id, fun _ => rfl, id⟩⟩

theorem EncUnit.pinB_edge (u : EncUnit) (now : Nat) (e : Fin 2) : u.Edge now e (u.pinB now e) := by
  cases h : u.unit[e.val].st with
  | idle => exact ⟨_, .inl (u.pinB_idle now e h), ⟨id, id, id⟩⟩
  | aKeyed => exact ⟨_, .inr ⟨u.pinB_aKeyed now e h, rfl⟩, ⟨fun _ => rfl, id, id⟩⟩
  | bKeyed => exact ⟨_, .inr ⟨u.pinB_bKeyed now e h, rfl⟩, ⟨id, id, id⟩⟩

theorem EncUnit.Edge.tokensKept {u v : EncUnit} {now : Nat} {e : Fin 2} (h : u.Edge now e v) (e' : Fin 2) :
    u.unit[e'.val].TokensKept v.unit[e'.val] := by
  obtain ⟨x, rfl | ⟨rfl, _⟩, hx⟩ := h
  · exact u.put_tokensKept e x hx e'
  · exact u.put_tokensKept e x hx e'

/-- The push pin clears no token (R204). -/
theorem EncUnit.pushed_tokensKept (u : EncUnit) (e e' : Fin 2) :
    u.unit[e'.val].TokensKept (u.pushed e).unit[e'.val] := by
  refine u.put_tokensKept e _ ?_ e'
  exact ⟨id, id, fun _ => rfl⟩

/-- The expiry of the glitch timer clears no token (R205). -/
theorem EncUnit.expire_tokensKept (u : EncUnit) (e : Fin 2) : u.unit[e.val].TokensKept u.expire.unit[e.val] := by
  rw [u.expire_unit e]
  exact ⟨id, id, id⟩

/-- An instruction that is neither a take nor a reset clears no token; a take clears the token it names alone
(R46 to R49). -/
theorem Effect.tokens {i : Instr} {s t : State} (he : Effect s i t) (hne : i ≠ .sysReset) :
    (∀ e : Fin 2, s.enc.unit[e.val].TokensKept t.enc.unit[e.val]) ∨
    ∃ (e : Fin 2) (k : BitVec 2), i = .encTake (BitVec.ofNat 8 e.val) k ∧
      t.enc = s.enc.put e (s.enc.unit[e.val].taken k) := by
  cases he with
  | sysReset => exact absurd rfl hne
  | encTake e k => exact .inr ⟨e, k, rfl, rfl⟩
  | evPina e => exact .inl (s.enc.pinA_edge s.env.now e).tokensKept
  | evPinb e => exact .inl (s.enc.pinB_edge s.env.now e).tokensKept
  | evPush e => exact .inl (s.enc.pushed_tokensKept e)
  | evGlitchExpire => exact .inl s.enc.expire_tokensKept
  | _ => exact .inl fun _ => ⟨id, id, id⟩

/-- A token that a take clears is the one it names, of the encoder it names (R49, R200). -/
theorem EncUnit.put_taken_cleared (u : EncUnit) (e e' : Fin 2) (k : BitVec 2) :
    let x := u.unit[e'.val]
    let y := (u.put e (u.unit[e.val].taken k)).unit[e'.val]
    (x.fwd = true → y.fwd = false → e' = e ∧ k = 0) ∧ (x.rev = true → y.rev = false → e' = e ∧ k = 1) ∧
      (x.push = true → y.push = false → e' = e ∧ k = 2) := by
  simp only [EncUnit.put_get]
  split
  case isTrue h =>
    subst h
    simp +contextual [Encoder.taken_fwd, Encoder.taken_rev, Encoder.taken_push]
  case isFalse => simp +contextual

end Sys2Proof.Machine

open Sys2Proof Sys2Proof.Machine

/-- Settles O24: the effects that write a buffer are those of its writers. -/
theorem bufferWritersAreTheNamedOnes : Obligations.BufferWritersAreTheNamedOnes := by
  intro i s t h hne
  have he := exec_effect h
  refine ⟨fun hw => ?_, fun hw => ?_, fun hw => ?_, fun hw => ?_, fun hw => ?_, fun hw => ?_⟩
  · cases he with
    | sysReset => exact absurd rfl hne
    | brReadNothing count => exact ⟨count, rfl⟩
    | _ => exact absurd rfl hw
  · cases he with
    | sysReset => exact absurd rfl hne
    | brSetimg addr word => exact ⟨addr, word, rfl⟩
    | _ => exact absurd rfl hw
  · cases he with
    | sysReset => exact absurd rfl hne
    | rdsLoadblk blk word => exact ⟨blk, word, rfl⟩
    | rdsProcess => exact absurd s.rds.process_grp hw
    | _ => exact absurd rfl hw
  · cases he with
    | sysReset => exact absurd rfl hne
    | rdsSettarget tq => exact ⟨tq, rfl⟩
    | rdsProcess => exact absurd s.rds.process_target hw
    | _ => exact absurd rfl hw
  · cases he with
    | sysReset => exact absurd rfl hne
    | rdsProcess => exact .inl rfl
    | rdsClear => exact .inr rfl
    | _ => simp at hw
  · cases he with
    | sysReset => exact absurd rfl hne
    | evRxbyte b => exact .inl ⟨b, rfl⟩
    | frClear => exact .inr rfl
    | _ => simp at hw

/-- Settles O25: only the effect of a take clears a token, and it clears the one it names. -/
theorem flagsAreClearedOnlyByTheirTake : Obligations.FlagsAreClearedOnlyByTheirTake := by
  intro i s t h hne
  have he := exec_effect h
  refine ⟨fun e => ?_, fun hset hclear => ?_⟩
  · rcases he.tokens hne with kept | ⟨e', k, rfl, htake⟩
    · obtain ⟨fwd, rev, push⟩ := kept e
      exact ⟨fun hx hy => Bool.noConfusion (hy.symm.trans (fwd hx)),
        fun hx hy => Bool.noConfusion (hy.symm.trans (rev hx)),
        fun hx hy => Bool.noConfusion (hy.symm.trans (push hx))⟩
    · obtain ⟨fwd, rev, push⟩ := s.enc.put_taken_cleared e' e k
      rw [← htake] at fwd rev push
      refine ⟨fun hx hy => ?_, fun hx hy => ?_, fun hx hy => ?_⟩
      · obtain ⟨rfl, rfl⟩ := fwd hx hy
        rfl
      · obtain ⟨rfl, rfl⟩ := rev hx hy
        rfl
      · obtain ⟨rfl, rfl⟩ := push hx hy
        rfl
  · cases he with
    | sysReset => exact absurd rfl hne
    | frTakeready => rfl
    | evRxbyte b =>
      have kept : (s.fr.rx s.env.now b).ready = true := (s.fr.rx_ready s.env.now b).trans hset
      exact Bool.noConfusion (hclear.symm.trans kept)
    | evQuietExpire => cases hclear
    | _ => exact Bool.noConfusion (hclear.symm.trans hset)

end

section
/-!
PROOFS. What the observations report (spec/10_state.md R60, R63), and the port that makes a command wait (R33, R329).
-/

namespace Sys2Proof.Machine

/-- A response changes no unit (R33, R85). -/
theorem State.respond_answered (s : State) (st : Status) (v : Word) (bs : List Byte) :
    SameUnits s (s.respond st v bs) ∧ Answered s (s.respond st v bs) st v bs :=
  ⟨⟨rfl, rfl, rfl, rfl⟩, rfl, rfl, rfl⟩

/-- Raising an error changes nothing else (R13). -/
theorem State.raise_errorOnly (s : State) (e : Status) : ErrorOnly s (s.raise e) e := s.respond_answered e 0 []

/-- `RDS_GETSLOT` with an operand in range (R169). -/
theorem exec_rdsGetslot (slot : BitVec 8) (i : Fin 16) (s : State) (hi : i.val = slot.toNat) :
    exec (.rdsGetslot slot) s =
      .next (s.respond .ok (BitVec.ofNat 16 s.rds.rtq[i].toNat) s.rds.rtc[i].toList) := by
  have hlegal : ¬ 15 < slot.toNat := by omega
  calc exec (.rdsGetslot slot) s
    _ = .next (s.respond .ok ((rd 0 s.rds.rtq slot.toNat).setWidth 16)
          (rd (Vector.replicate 4 0) s.rds.rtc slot.toNat).toList) := if_neg hlegal
    _ = _ := by simp [← hi]

/-- `ENC_STATE` with an operand in range (R201). -/
theorem exec_encState (enc : BitVec 8) (e : Fin 2) (s : State) (he : e.val = enc.toNat) :
    exec (.encState enc) s = .next (s.respond .ok (encStateWord s.enc.unit[e] s.enc.gt.isSome) []) := by
  simp [exec, execEncState, (encIndex_some enc e).mpr he.symm]

/-- `ENC_STATE` with an operand out of range (R107, R201). -/
theorem exec_encState_range (enc : BitVec 8) (s : State) (henc : 1 < enc.toNat) :
    exec (.encState enc) s = .next (s.raise .rangeError) := by
  simp [exec, execEncState, (encIndex_none enc).mpr henc]

/-- A pending encoder has one of its tokens set (R60). -/
theorem Encoder.pending_iff (x : Encoder) : x.pending = true ↔ x.fwd = true ∨ x.rev = true ∨ x.push = true := by
  simp [Encoder.pending, or_assoc]

/-- A command word presented to a port that is not free waits behind the others (R329). -/
theorem deliver_host_waits (s : State) (w : CmdWord) (h : s.portFree = false) :
    deliver (.host w) s = .next { s with env := { s.env with waiting := s.env.waiting ++ [w] } } := by
  simp [deliver, h]

end Sys2Proof.Machine

open Sys2Proof Sys2Proof.Machine

/-- Settles O14: the step delivers the word, and the busy port is not free. -/
theorem busyPortHoldsTheCommand : Obligations.BusyPortHoldsTheCommand := by
  intro s t w rest hbusy hinbox hdue
  rw [step_deliver s ⟨t, .host w⟩ rest (.inl hbusy) hinbox hdue]
  exact deliver_host_waits _ w (by simp [State.portFree, hbusy])

/-- Settles O42: each observation is one response, read from the unit. -/
theorem rdsObservationsReadTheUnit : Obligations.RdsObservationsReadTheUnit := by
  intro s
  refine ⟨?getps, fun slot hslot => ?range, fun slot i hi => ?getslot, ?getstate⟩
  case getps =>
    obtain ⟨same, answered⟩ := s.respond_answered .ok 0 s.rds.ps.toList
    exact ⟨_, _, rfl, same, answered, Vector.length_toList, fun p => by simp⟩
  case range => exact ⟨_, if_pos hslot, s.raise_errorOnly _⟩
  case getslot =>
    obtain ⟨same, answered⟩ :=
      s.respond_answered .ok (BitVec.ofNat 16 s.rds.rtq[i].toNat) s.rds.rtc[i].toList
    exact ⟨_, _, exec_rdsGetslot slot i s hi, same, answered, Vector.length_toList, fun j => by simp⟩
  case getstate =>
    rw [← rdsStateWord_eq]
    exact ⟨_, rfl, s.respond_answered _ _ _⟩

/-- Settles O45: the status word is the sum of its fields. -/
theorem encStateReportsOneEncoder : Obligations.EncStateReportsOneEncoder := by
  refine fun enc s => ⟨fun henc => ?range, fun e he => ?report⟩
  case range => exact ⟨_, exec_encState_range enc s henc, s.raise_errorOnly _⟩
  case report =>
    refine ⟨_, exec_encState enc e s he, ?_⟩
    rw [encStateWord_eq]
    cases s.enc.unit[e].st <;> exact s.respond_answered _ _ _

/-- Settles O56: the status word is the sum of its fields. -/
theorem frStateReportsTheCursor : Obligations.FrStateReportsTheCursor := by
  intro s
  rw [← frStateWord_eq]
  exact ⟨_, rfl, s.respond_answered _ _ _⟩

/-- Settles O60: the tokens of the two encoders, one encoder at a time. -/
theorem attnIsAnyPendingFlag : Obligations.AttnIsAnyPendingFlag := by
  intro s
  simp only [State.attn, Bool.or_eq_true, Encoder.pending_iff, Fin.exists_fin_two, or_assoc]
  rfl

end

section
/-!
PROOFS. Every step keeps the machine's invariants: first the invariant of each unit under that unit's operations
(R38, R40, R136, R207, R237), then of the port (R33, R260) and of the deadlines (R263), then the steps.
-/

namespace Sys2Proof.Machine

/-! ### The timers -/

/-- What an instruction makes of a timer: it is as it was, disarmed, or armed anew (R15, R16). -/
def Retimed (now duration : Nat) (before after : Option Nat) : Prop :=
  after = before ∨ after = none ∨ after = armed now duration

/-- A timer armed now has its deadline ahead. -/
theorem Retimed.not_past {now duration : Nat} {before after : Option Nat} (h : Retimed now duration before after)
    (hbefore : ∀ d, before = some d → now ≤ d) : ∀ d, after = some d → now ≤ d := by
  intro d hd
  rcases h with rfl | rfl | rfl
  · exact hbefore d hd
  · cases hd
  · cases hd
    exact Nat.le_add_right now duration

/-! ### The register bridge -/

/-- A read leaves register 0x09 at 0: no wire word it keeps lies there (R136, R321). -/
theorem newRes_nine (count : Nat) (data : List Byte) : (newRes count data)[9] = 0 := by
  have hle := readWords_le count
  rw [newRes_get count data 9 (by omega), if_neg (by omega)]

/-! ### The RDS assembler -/

/-- A unit whose slots are all empty keeps the invariant when they hold no characters. -/
theorem RdsInv.of_empty {r : Rds} (htarget : r.target ≠ 0) (hrtc : r.rtc = .replicate 16 (.replicate 4 0)) :
    RdsInv r :=
  ⟨htarget, fun i j _ => by simp [hrtc]⟩

/-- The invariant speaks of the target, the slots' characters and their qualities alone. -/
theorem RdsInv.congr {r r' : Rds} (h : RdsInv r) (htarget : r'.target = r.target) (hrtc : r'.rtc = r.rtc)
    (hrtq : r'.rtq = r.rtq) : RdsInv r' := by
  refine ⟨htarget ▸ h.targetLegal, ?_⟩
  rw [hrtc, hrtq]
  exact h.emptySlots

/-- A slot that has had a vote has a quality above 0 (R165). -/
theorem Rds.vote_rtq_self_ne_zero (r : Rds) (slot : Fin 16) (cs : Vector Byte 4) :
    (r.vote slot cs).rtq[slot.val] ≠ 0 := by
  have gain : ∀ q t : BitVec 2, q < t → q + 1 ≠ 0 := by decide
  rcases r.vote_cases slot cs with ⟨_, _, hlt, h⟩ | ⟨hq, _, _, h⟩ | ⟨_, h⟩
  · simpa [h] using gain _ _ hlt
  · rwa [h]
  · simp [h]

/-- A vote fills its own slot and leaves the others as they were (R165). -/
theorem RdsInv.vote {r : Rds} (h : RdsInv r) (slot : Fin 16) (cs : Vector Byte 4) : RdsInv (r.vote slot cs) := by
  refine ⟨by simpa using h.targetLegal, fun i j hi => ?_⟩
  simp only [Fin.getElem_fin] at hi ⊢
  by_cases hs : i = slot
  · exact absurd (hs ▸ hi) (r.vote_rtq_self_ne_zero slot cs)
  · rw [r.vote_rtq_other slot i cs hs] at hi
    simp only [r.vote_rtc_other slot i cs hs]
    exact h.emptySlots i j hi

theorem RdsInv.rtAssemble {r : Rds} (h : RdsInv r) (idx : BitVec 5) (c d : Word) : RdsInv (r.rtAssemble idx c d) := by
  refine RdsInv.vote ?_ _ _
  exact h.congr rfl rfl rfl

theorem RdsInv.process {r : Rds} (h : RdsInv r) : RdsInv r.process.1 := by
  rcases r.process_cases with ⟨_, hp⟩ | ⟨_, _, hp⟩ | ⟨_, _, hp⟩ | ⟨_, _, _, hp⟩ <;> rw [hp]
  · exact h
  · exact h.congr rfl rfl rfl
  · exact h.rtAssemble _ _ _
  · exact h

/-! ### The encoder debouncer -/

/-- A keyed encoder has the glitch timer running (R207). -/
def EncUnit.KeyedArmed (u : EncUnit) : Prop := ∀ e : Fin 2, u.unit[e].st ≠ .idle → u.gt.isSome = true

/-- Replacing an encoder by one that is idle, or in the state it was in, keys none. -/
theorem EncUnit.KeyedArmed.put {u : EncUnit} (h : u.KeyedArmed) (e : Fin 2) {x : Encoder}
    (hx : x.st = .idle ∨ x.st = u.unit[e.val].st) : (u.put e x).KeyedArmed := by
  intro e' hkeyed
  simp only [Fin.getElem_fin, EncUnit.put_get] at hkeyed
  split at hkeyed
  case isTrue he =>
    rcases hx with hidle | hsame
    · exact absurd hidle hkeyed
    · exact h e (hsame ▸ hkeyed)
  case isFalse => exact h e' hkeyed

/-- With the timer armed every encoder may be keyed. -/
theorem EncUnit.KeyedArmed.of_armed {u : EncUnit} (h : u.gt.isSome = true) : u.KeyedArmed := fun _ _ => h

/-- With every encoder idle the timer may be disarmed. -/
theorem EncUnit.KeyedArmed.of_idle {u : EncUnit} (h : ∀ e : Fin 2, u.unit[e.val].st = .idle) : u.KeyedArmed :=
  fun e hkeyed => absurd (h e) hkeyed

theorem EncUnit.Edge.keyedArmed {u v : EncUnit} {now : Nat} {e : Fin 2} (hv : u.Edge now e v) (h : u.KeyedArmed) :
    v.KeyedArmed := by
  obtain ⟨x, rfl | ⟨rfl, hidle⟩, _⟩ := hv
  · exact .of_armed rfl
  · exact h.put e (.inl hidle)

/-- An edge leaves the glitch timer as it was or arms it anew (R202, R203). -/
theorem EncUnit.Edge.gt {u v : EncUnit} {now : Nat} {e : Fin 2} (hv : u.Edge now e v) :
    v.gt = u.gt ∨ v.gt = armed now Config.tGlitch := by
  obtain ⟨x, rfl | ⟨rfl, _⟩, _⟩ := hv
  · exact .inr rfl
  · exact .inl rfl

/-! ### The reply framer -/

/-- An empty buffer with the cursor at its start has the invariant (R237). -/
theorem FramerInv.of_empty {f : Framer} (hlen : f.len = .replicate 10 0) (hl : f.curL = 0) (hc : f.curC = 0) :
    FramerInv f := by
  constructor <;> simp [hlen, hl, hc]

/-- The invariant speaks of the buffer and the cursor, and of an armed timer. -/
theorem FramerInv.congr {f f' : Framer} (h : FramerInv f) (hline : f'.line = f.line) (hlen : f'.len = f.len)
    (hl : f'.curL = f.curL) (hc : f'.curC = f.curC) (hqt : f'.qt.isSome = true → f'.curC.val = 0) : FramerInv f' := by
  obtain ⟨line, len, curL, curC, ready, qt⟩ := f'
  cases hline
  cases hlen
  cases hl
  cases hc
  exact { h with timerAtLineStart := hqt }

section Store

variable {f : Framer} {b : Byte}

/-- A byte of a line after `b` is stored is `b` at the cursor, or stood there before (R231). -/
theorem FramerInv.store_get (h : FramerInv f) (hl : f.curL.val < 10) (l : Fin 10) (c : Fin 50)
    (hc : c.val < (f.store b hl).len[l.val].val) :
    (l.val = f.curL.val ∧ c = f.curC ∧ (f.store b hl).line[l.val][c.val] = b) ∨
    (c.val < f.len[l.val].val ∧ (f.store b hl).line[l.val][c.val] = f.line[l.val][c.val]) := by
  have hcur : l.val = f.curL.val → f.len[l.val].val = f.curC.val := h.currentLength l
  rw [f.store_len b hl l] at hc
  rw [f.store_line b hl l c]
  by_cases hat : l.val = f.curL.val ∧ c = f.curC
  · exact .inl ⟨hat.1, hat.2, if_pos hat⟩
  · rw [Fin.ext_iff] at hat
    refine .inr ⟨?_, if_neg (by rwa [Fin.ext_iff])⟩
    split at hc <;> omega

/-- No line holds a CR or NUL after a byte that is neither is stored (R237). -/
theorem FramerInv.store_noCrNul (h : FramerInv f) (hl : f.curL.val < 10) (hcr : b ≠ 0x0D) (hnul : b ≠ 0x00)
    (l : Fin 10) (c : Fin 50) (hc : c.val < (f.store b hl).len[l.val].val) :
    (f.store b hl).line[l.val][c.val] ≠ 0x0D ∧ (f.store b hl).line[l.val][c.val] ≠ 0x00 := by
  rcases h.store_get hl l c hc with ⟨_, _, hb⟩ | ⟨hold, hb⟩
  · rw [hb]
    exact ⟨hcr, hnul⟩
  · rw [hb]
    exact h.noCrNul l c hold

/-- A byte that is not the last of its line is no LF, whatever byte is stored (R237). -/
theorem FramerInv.store_lfOnlyLast (h : FramerInv f) (hl : f.curL.val < 10) (l : Fin 10) (c : Fin 50)
    (hc : c.val + 1 < (f.store b hl).len[l.val].val) : (f.store b hl).line[l.val][c.val] ≠ 0x0A := by
  have hlen := f.store_len b hl l
  rcases h.store_get (b := b) hl l c (by omega) with ⟨hll, hcc, _⟩ | ⟨hold, hb⟩
  · rw [if_pos hll] at hlen
    rw [hcc] at hc
    omega
  · rw [hb]
    by_cases hll : l.val = f.curL.val
    · exact h.openNoLf l c hll hold
    · rw [if_neg hll] at hlen
      exact h.lfOnlyLast l c (by simpa only [Fin.getElem_fin, ← hlen] using hc)

end Store

/-- A byte that closes its line: LF, or the last column (R231, R237). -/
theorem FramerInv.close {f : Framer} {b : Byte} (h : FramerInv f) (hl : f.curL.val < 10) (hcr : b ≠ 0x0D)
    (hnul : b ≠ 0x00) (hend : b = 0x0A ∨ f.curC.val = 49) (qt : Option Nat) :
    FramerInv { f.store b hl with curL := ⟨f.curL.val + 1, by omega⟩, curC := 0, qt := qt } := by
  have hlen := f.store_len b hl
  constructor
  case fullColumn => exact fun _ => rfl
  case closedNonempty =>
    intro l hlt
    have hold := h.closedNonempty l
    simp only [Fin.getElem_fin, hlen] at *
    split <;> omega
  case currentLength =>
    intro l hll
    have hold := h.laterEmpty l
    simp only [Fin.getElem_fin, hlen] at *
    split <;> simp <;> omega
  case laterEmpty =>
    intro l hlt
    have hold := h.laterEmpty l
    simp only [Fin.getElem_fin, hlen] at *
    split <;> omega
  case noCrNul => exact h.store_noCrNul hl hcr hnul
  case closedEnd =>
    intro l c hlt hlast
    have hline := f.store_line b hl l c
    have hold := h.closedEnd l c
    simp only [Fin.getElem_fin, hlen, hline] at *
    by_cases hll : l.val = f.curL.val
    · have hcc : c = f.curC := Fin.ext (by simp only [hll, if_true] at hlast; omega)
      simp only [hll, hcc, true_and, if_true]
      exact hend.imp_right fun hfull => by omega
    · simp only [hll, false_and, if_false] at hlast ⊢
      exact hold (by omega) hlast
  case lfOnlyLast => exact h.store_lfOnlyLast hl
  case openNoLf =>
    intro l c hll hc
    have hold := h.laterEmpty l
    simp only [Fin.getElem_fin, hlen] at *
    split at hc <;> omega
  case timerAtLineStart => exact fun _ => rfl

/-- A byte inside its line (R231, R237). -/
theorem FramerInv.extend {f : Framer} {b : Byte} (h : FramerInv f) (hl : f.curL.val < 10) (hcr : b ≠ 0x0D)
    (hnul : b ≠ 0x00) (hlf : b ≠ 0x0A) (hcol : f.curC.val + 1 < 50) :
    FramerInv { f.store b hl with curC := ⟨f.curC.val + 1, hcol⟩, qt := none } := by
  have hlen := f.store_len b hl
  constructor
  case fullColumn => exact fun hfull => absurd hfull (by simp; omega)
  case closedNonempty =>
    intro l hlt
    have hold := h.closedNonempty l
    simp only [Fin.getElem_fin, Framer.store_curL, hlen] at *
    split <;> omega
  case currentLength =>
    intro l hll
    simp only [Fin.getElem_fin, Framer.store_curL, hlen] at *
    exact if_pos hll
  case laterEmpty =>
    intro l hlt
    have hold := h.laterEmpty l
    simp only [Fin.getElem_fin, Framer.store_curL, hlen] at *
    split <;> omega
  case noCrNul => exact h.store_noCrNul hl hcr hnul
  case closedEnd =>
    intro l c hlt hlast
    have hline := f.store_line b hl l c
    have hold := h.closedEnd l c
    have hll : l.val ≠ f.curL.val := Nat.ne_of_lt hlt
    simp only [Fin.getElem_fin, Framer.store_curL, hlen, hline, hll, false_and, if_false] at *
    exact hold hlt hlast
  case lfOnlyLast => exact h.store_lfOnlyLast hl
  case openNoLf =>
    intro l c hll hc
    rcases h.store_get hl l c hc with ⟨_, _, hb⟩ | ⟨hold, hb⟩
    · exact hb ▸ hlf
    · exact hb ▸ h.openNoLf l c hll hold
  case timerAtLineStart => exact fun harmed => nomatch harmed

theorem FramerInv.rx {f : Framer} (h : FramerInv f) (now : Nat) (b : Byte) : FramerInv (f.rx now b) := by
  rcases f.rx_cases now b with ⟨_, hf⟩ | ⟨hl, hcr, hnul, hend, hf⟩ | ⟨hl, hcol, hcr, hnul, hlf, hf⟩ <;> rw [hf]
  · exact h
  · exact h.close hl hcr hnul hend _
  · exact h.extend hl hcr hnul hlf hcol

/-- A byte leaves the quiet timer as it was, disarms it or arms it anew (R231). -/
theorem Framer.rx_qt (f : Framer) (now : Nat) (b : Byte) :
    Retimed now Config.tQuiet f.qt (f.rx now b).qt := by
  rcases f.rx_cases now b with ⟨_, hf⟩ | ⟨_, _, _, _, hf⟩ | ⟨_, _, _, _, _, hf⟩ <;> rw [hf]
  · exact .inl rfl
  · exact .inr (.inr rfl)
  · exact .inr (.inl rfl)

/-! ### One instruction -/

section Effect

variable {i : Instr} {s t : State}

theorem Effect.framer (he : Effect s i t) (h : FramerInv s.fr) : FramerInv t.fr := by
  cases he with
  | sysReset => exact .of_empty rfl rfl rfl
  | frTakeready => exact h.congr rfl rfl rfl rfl h.timerAtLineStart
  | frClear => exact .of_empty rfl rfl rfl
  | evRxbyte b => exact h.rx s.env.now b
  | evQuietExpire => exact h.congr rfl rfl rfl rfl fun harmed => nomatch harmed
  | _ => exact h

theorem Effect.rds (he : Effect s i t) (h : RdsInv s.rds) : RdsInv t.rds := by
  cases he with
  | sysReset => exact .of_empty (by simp [Rds.reset]) rfl
  | rdsLoadblk blk word => exact h.congr rfl rfl rfl
  | rdsProcess => exact h.process
  | rdsSettarget tq legal => exact ⟨legal, h.emptySlots⟩
  | rdsClear => exact .of_empty h.targetLegal rfl
  | _ => exact h

theorem Effect.register9 (he : Effect s i t) (h : s.br.res[9] = 0) : t.br.res[9] = 0 := by
  cases he with
  | sysReset => rfl
  | brReadNothing count => exact newRes_nine count.toNat []
  | _ => exact h

theorem Effect.keyedArmed (he : Effect s i t) (h : s.enc.KeyedArmed) : t.enc.KeyedArmed := by
  cases he with
  | sysReset => exact .of_idle fun e => by simp [EncUnit.reset, Encoder.reset]
  | encTake e k => exact h.put e (.inr (Encoder.taken_st _ k))
  | evPina e => exact (s.enc.pinA_edge s.env.now e).keyedArmed h
  | evPinb e => exact (s.enc.pinB_edge s.env.now e).keyedArmed h
  | evPush e => exact h.put e (.inr rfl)
  | evGlitchExpire => exact .of_idle fun e => by rw [s.enc.expire_unit e]
  | _ => exact h

theorem Effect.gt (he : Effect s i t) : Retimed s.env.now Config.tGlitch s.enc.gt t.enc.gt := by
  cases he with
  | sysReset => exact .inr (.inl rfl)
  | evPina e => exact (s.enc.pinA_edge s.env.now e).gt.imp_right .inr
  | evPinb e => exact (s.enc.pinB_edge s.env.now e).gt.imp_right .inr
  | evGlitchExpire => exact .inr (.inl rfl)
  | _ => exact .inl rfl

theorem Effect.qt (he : Effect s i t) : Retimed s.env.now Config.tQuiet s.fr.qt t.fr.qt := by
  cases he with
  | sysReset => exact .inr (.inl rfl)
  | evRxbyte b => exact s.fr.rx_qt s.env.now b
  | evQuietExpire => exact .inr (.inl rfl)
  | _ => exact .inl rfl

/-- No instruction takes time or touches the reset line (R262, R312). -/
theorem Effect.clock (he : Effect s i t) : t.env.now = s.env.now ∧ t.env.rst = s.env.rst := by
  cases he <;> exact ⟨rfl, rfl⟩

/-- An event leaves the port and the transfer as they are (R83). -/
theorem Effect.event_port (he : Effect s i t) (hi : i.isEvent = true) : t.hpBusy = s.hpBusy ∧ t.xfer = s.xfer := by
  cases he with
  | rangeError command => exact absurd hi (by simp [command])
  | answer command => exact absurd hi (by simp [command])
  | evPina | evPinb | evPush | evGlitchExpire | evRxbyte | evQuietExpire => exact ⟨rfl, rfl⟩
  | _ => cases hi

/-- A command that finds no transfer outstanding ends with the port free, or busy with the legal transfer that it posted
(R33, R260). -/
theorem Effect.command_port (he : Effect s i t) (hi : i.isEvent = false) (hx : s.xfer = none) :
    t.hpBusy = t.xfer.isSome ∧ ∀ x, t.xfer = some x → x.legal := by
  have free : ∀ {u : State}, u.xfer = none → u.hpBusy = false →
      u.hpBusy = u.xfer.isSome ∧ ∀ x, u.xfer = some x → x.legal := by
    intro u hxfer hbusy
    simp [hxfer, hbusy]
  have busy : ∀ {x : Transfer}, x.legal →
      (s.post x).hpBusy = (s.post x).xfer.isSome ∧ ∀ y, (s.post x).xfer = some y → y.legal := by
    intro x legal
    simp [legal]
  cases he with
  | sysReset => exact free rfl rfl
  | brRead count x legal => exact busy legal
  | brWrite ub x legal => exact busy legal
  | evPina | evPinb | evPush | evGlitchExpire | evRxbyte | evQuietExpire => cases hi
  | _ => exact free hx rfl

end Effect

/-! ### The machine -/

/-- Whether the port was busy before a command is accepted makes no difference to it: every command ends by setting or
clearing `HP_BUSY` (R33, R260). -/
theorem exec_command_busy (i : Instr) (s : State) (b : Bool) (hi : i.isEvent = false) :
    exec i { s with hpBusy := b } = exec i s := by
  cases i with
  | evPina | evPinb | evPush | evGlitchExpire | evRxbyte | evQuietExpire => cases hi
  | _ => rfl

section Machine

variable {s t : State}

/-- With the port free no transfer is outstanding (R33). -/
theorem State.Inv.xfer_none (h : s.Inv) (hfree : s.hpBusy = false) : s.xfer = none := by
  simpa [hfree] using h.busyIffTransfer

/-- The invariant speaks of time and the reset line, and of nothing else in the environment. -/
theorem State.Inv.withEnv (h : s.Inv) (env : Env) (hrst : env.rst = s.env.rst)
    (hgt : ∀ d, s.enc.gt = some d → env.now ≤ d) (hqt : ∀ d, s.fr.qt = some d → env.now ≤ d) :
    State.Inv { s with env := env } :=
  { h with
    deadlines := ⟨hgt, hqt⟩
    heldInReset := fun hr => h.heldInReset (hrst ▸ hr) }

/-- Time goes on to a stamp that no deadline lies before (R262, R263). -/
theorem State.Inv.stamped (h : s.Inv) (d : Nat) (hgt : ∀ d', s.enc.gt = some d' → d ≤ d')
    (hqt : ∀ d', s.fr.qt = some d' → d ≤ d') : (s.stamped d).Inv := by
  obtain ⟨hgt', hqt'⟩ := h.deadlines
  exact h.withEnv _ rfl (fun d' hd' => Nat.max_le.mpr ⟨hgt' d' hd', hgt d' hd'⟩)
    fun d' hd' => Nat.max_le.mpr ⟨hqt' d' hd', hqt d' hd'⟩

/-- A block with an armed timer is not held in reset (R311). -/
theorem State.Inv.not_held (h : s.Inv) {d : Nat} (hd : s.enc.gt = some d ∨ s.fr.qt = some d) : s.env.rst = false := by
  cases hr : s.env.rst with
  | false => rfl
  | true =>
    obtain ⟨_, hgt, hqt⟩ := h.heldInReset hr
    simp [hgt, hqt] at hd

/-- A response with no transfer outstanding. -/
theorem State.Inv.respond (h : s.Inv) (hx : s.xfer = none) (st : Status) (v : Word) (bs : List Byte) :
    (s.respond st v bs).Inv :=
  { h with
    busyIffTransfer := by simp [hx]
    heldInReset := fun hr => ⟨rfl, (h.heldInReset hr).2⟩ }

/-- The end of a bus command (R131, R132). -/
theorem State.Inv.complete (h : s.Inv) (g : Bridge → Bridge) (r : Response) (h9 : (g s.br).res[9] = 0) :
    (s.complete g r).Inv :=
  { h with
    busyIffTransfer := rfl
    transferLegal := fun _ hx => nomatch hx
    heldInReset := fun hr => ⟨rfl, (h.heldInReset hr).2⟩
    register9 := h9 }

/-- The block after reset, whatever is outside it (R310). -/
theorem State.resetBlock_inv (s : State) : s.resetBlock.Inv where
  framer := .of_empty rfl rfl rfl
  rds := .of_empty (by simp [Rds.reset]) rfl
  busyIffTransfer := rfl
  transferLegal _ hx := nomatch hx
  keyedArmed := EncUnit.KeyedArmed.of_idle fun e => by simp [EncUnit.reset, Encoder.reset]
  deadlines := ⟨fun _ hd => (nomatch hd), fun _ hd => nomatch hd⟩
  heldInReset _ := ⟨rfl, rfl, rfl⟩
  register9 := rfl

/-- An instruction that runs outside reset, a command on the free port. -/
theorem State.Inv.exec {i : Instr} (h : s.Inv) (hr : s.env.rst = false) (hfree : i.isEvent = false → s.hpBusy = false)
    (ht : exec i s = .next t) : t.Inv := by
  have he := exec_effect ht
  obtain ⟨hnow, hrst⟩ := he.clock
  have port : t.hpBusy = t.xfer.isSome ∧ ∀ x, t.xfer = some x → x.legal := by
    cases hi : i.isEvent with
    | true =>
      obtain ⟨hbusy, hx⟩ := he.event_port hi
      rw [hbusy, hx]
      exact ⟨h.busyIffTransfer, h.transferLegal⟩
    | false => exact he.command_port hi (h.xfer_none (hfree hi))
  obtain ⟨hgt, hqt⟩ := h.deadlines
  exact {
    framer := he.framer h.framer
    rds := he.rds h.rds
    busyIffTransfer := port.1
    transferLegal := port.2
    keyedArmed := he.keyedArmed h.keyedArmed
    deadlines := hnow ▸ ⟨he.gt.not_past hgt, he.qt.not_past hqt⟩
    heldInReset := fun hheld => Bool.noConfusion (hheld.symm.trans (hrst.trans hr))
    register9 := he.register9 h.register9 }

/-- A word accepted on the free port (R105, R260). -/
theorem State.Inv.runCommand {w : CmdWord} (h : s.Inv) (hr : s.env.rst = false) (hfree : s.hpBusy = false)
    (ht : runCommand w s = .next t) : t.Inv := by
  rcases runCommand_cases s w with ⟨i, _, hi, hrun⟩ | ⟨_, hrun⟩
  · rw [hrun, exec_command_busy i s true hi] at ht
    exact h.exec hr (fun _ => hfree) ht
  · rw [hrun] at ht
    cases ht
    exact h.respond (h.xfer_none hfree) .illegal 0 []

/-- A word on the event channel outside reset (R105). -/
theorem State.Inv.runEvent {w : CmdWord} (h : s.Inv) (hr : s.env.rst = false) (ht : runEvent w s = .next t) :
    t.Inv := by
  rcases runEvent_cases s w with ⟨i, _, hi, hrun⟩ | ⟨_, hrun⟩
  · exact h.exec hr (fun hc => Bool.noConfusion (hc.symm.trans hi)) (hrun ▸ ht)
  · rw [hrun] at ht
    cases ht

/-- An event that reaches the block, or is lost in reset (R311). -/
theorem State.Inv.arrive {w : CmdWord} (h : s.Inv) (ht : arrive w s = .next t) : t.Inv := by
  cases hr : s.env.rst with
  | true =>
    simp only [Machine.arrive, hr, if_true] at ht
    cases ht
    exact h
  | false =>
    simp only [Machine.arrive, hr, Bool.false_eq_true, if_false] at ht
    exact h.runEvent hr ht

theorem State.Inv.busData (h : s.Inv) (nr : Nat) (data : List Byte) : (busData nr data s).Inv := by
  by_cases hread : ∃ dev count n, s.answering nr = some (.read dev count n)
  · obtain ⟨dev, count, n, ha⟩ := hread
    rw [busData_read s nr dev count n data ha]
    split
    · exact h.complete (fun b => { b with res := newRes count data }) ⟨.ok, _, []⟩ (newRes_nine count data)
    · exact h.complete id ⟨.busError, 0, []⟩ h.register9
  · rw [busData_ignored s nr data fun dev count n ha => hread ⟨dev, count, n, ha⟩]
    exact h

theorem State.Inv.busCount (h : s.Inv) (nr m : Nat) : (busCount nr m s).Inv := by
  by_cases hwrite : ∃ dev data, s.answering nr = some (.write dev data)
  · obtain ⟨dev, data, ha⟩ := hwrite
    rw [busCount_write s nr dev m data ha]
    split
    · exact h.complete id ⟨.ok, _, []⟩ h.register9
    · exact h.complete id ⟨.busError, 0, []⟩ h.register9
  · rw [busCount_ignored s nr m fun dev data ha => hwrite ⟨dev, data, ha⟩]
    exact h

/-- Whatever the input (R260, R261, R265, R311). -/
theorem State.Inv.deliver {x : Item} (h : s.Inv) (ht : deliver x s = .next t) : t.Inv := by
  obtain ⟨hgt, hqt⟩ := h.deadlines
  cases x with
  | host w =>
    cases hp : s.portFree with
    | true =>
      simp only [Machine.deliver, hp, if_true] at ht
      simp only [State.portFree, Bool.and_eq_true, Bool.not_eq_true'] at hp
      exact h.runCommand hp.2 hp.1 ht
    | false =>
      simp only [Machine.deliver, hp, Bool.false_eq_true, if_false] at ht
      cases ht
      exact h.withEnv _ rfl hgt hqt
  | edge pin e rising =>
    cases hw : edgeWord pin e rising with
    | some w =>
      simp only [Machine.deliver, hw] at ht
      exact h.arrive ht
    | none =>
      simp only [Machine.deliver, hw] at ht
      cases ht
      exact h
  | rx b => exact h.arrive ht
  | event w => exact h.arrive ht
  | busData nr data =>
    cases ht
    exact h.busData nr data
  | busCount nr m =>
    cases ht
    exact h.busCount nr m
  | resetOn =>
    cases ht
    exact { s.resetBlock_inv with heldInReset := fun _ => ⟨rfl, rfl, rfl⟩ }
  | resetOff =>
    cases ht
    exact { h with heldInReset := fun hr => nomatch hr }

end Machine

end Sys2Proof.Machine

open Sys2Proof Sys2Proof.Machine

/-- Settles O58: each kind of step runs an instruction or an input in a state that has the invariant, its time moved to
the step's stamp. -/
theorem everyStepKeepsTheInvariant : Obligations.EveryStepKeepsTheInvariant := by
  intro s t h ht
  obtain ⟨hgt, hqt⟩ := h.deadlines
  rcases step_cases s with ⟨_, _, _, _, hs⟩ | ⟨d, hd, hle, hs⟩ | ⟨d, hd, hle, hs⟩ | ⟨w, rest, hfree, hr, _, _, hs⟩ |
    ⟨i, rest, _, _, ⟨hgt', hqt'⟩, hs⟩ <;> rw [hs] at ht
  · cases ht
    exact h
  · exact (h.stamped d (fun _ hd' => Nat.le_of_eq (Option.some.inj (hd.symm.trans hd'))) hle).runEvent
      (h.not_held (.inl hd)) ht
  · exact (h.stamped d hle fun _ hd' => Nat.le_of_eq (Option.some.inj (hd.symm.trans hd'))).runEvent
      (h.not_held (.inr hd)) ht
  · exact (h.withEnv { s.env with waiting := rest } rfl hgt hqt).runCommand hr hfree ht
  · have taken := h.withEnv { s.env with inbox := rest, now := max s.env.now i.time } rfl
      (fun d hd => Nat.le_of_lt (hgt' d hd)) fun d hd => Nat.le_of_lt (hqt' d hd)
    exact taken.deliver ht

end

section
/-!
PROOFS. Which instruction a step runs (spec/20_memory.md R83, spec/49_system.md R260, R265): a command off the free host
port, or the event of an input.
-/

namespace Sys2Proof.Machine

/-- A step that accepts the command that waits longest runs its word (R260). -/
theorem step_accept (s : State) (w : CmdWord) (rest : List CmdWord) (hb : s.hpBusy = false) (hr : s.env.rst = false)
    (hw : s.env.waiting = w :: rest) (h : s.nothingDueBy s.env.now) :
    step s = runCommand w { s with env := { s.env with waiting := rest } } := by
  simp [step, advance, s.activity_accept w rest hb hr hw h]

/-- A word that the host presents to the free port is run (R260). -/
theorem deliver_host_free (s : State) (w : CmdWord) (hb : s.hpBusy = false) (hr : s.env.rst = false) :
    deliver (.host w) s = runCommand w s := by
  simp [deliver, State.portFree, hb, hr]

/-- The word that the dispatcher makes of a byte decodes to the byte's event (R106, R265). -/
theorem decode_rxWord (b : Byte) : decode (rxWord b) = some (.evRxbyte b) := by
  have hhi : (0#8 ++ b).extractLsb' 8 8 = 0 := BitVec.extractLsb'_append_eq_left
  have hlo : (0#8 ++ b).extractLsb' 0 8 = b := BitVec.extractLsb'_append_eq_right
  simp [decode, rxWord, encode, hhi, hlo]

/-- Outside reset a word that decodes to an event runs it (R105, R311). -/
theorem arrive_of_decode (s : State) (w : CmdWord) (i : Instr) (hr : s.env.rst = false) (hd : decode w = some i)
    (he : i.isEvent = true) : arrive w s = exec i s := by
  rw [← runEvent_of_decode s w i hd he]
  simp [arrive, hr]

end Sys2Proof.Machine

open Sys2Proof Sys2Proof.Machine

/-- Settles O6: the step accepts the waiting word, which runs the command it decodes to. -/
theorem stepRunsWaitingCommand : Obligations.StepRunsWaitingCommand := by
  intro s w rest i hb hr hw hdue hd hc
  rw [step_accept s w rest hb hr hw hdue]
  exact runCommand_of_decode _ w i hd hc

/-- Settles O7: the step delivers the word to the free port, where it runs the command it decodes to. -/
theorem stepRunsPresentedCommand : Obligations.StepRunsPresentedCommand := by
  intro s t w rest i hb hr hw hinbox hdue hd hc
  rw [step_deliver s ⟨t, .host w⟩ rest (.inr (.inr hw)) hinbox hdue, deliver_host_free]
  · exact runCommand_of_decode _ w i hd hc
  · exact hb
  · exact hr

/-- Settles O8: the step delivers the input, whose event word arrives outside reset. -/
theorem stepRunsDispatchedEvent : Obligations.StepRunsDispatchedEvent := by
  intro s t x rest i hr hport hinbox hdue hx
  rw [step_deliver s ⟨t, x⟩ rest (hport.imp_right .inr) hinbox hdue]
  rcases hx with ⟨e, rfl, rfl⟩ | ⟨e, rfl, rfl⟩ | ⟨e, rfl, rfl⟩ | ⟨b, rfl, rfl⟩ | ⟨w, rfl, hd, he⟩
  · exact deliver_edge_a _ e hr
  · exact deliver_edge_b _ e hr
  · exact deliver_edge_push _ e hr
  · exact arrive_of_decode _ (rxWord b) _ hr (decode_rxWord b) rfl
  · exact arrive_of_decode _ w i hr hd he

end

section
/-!
PROOFS. Two timers due at one deadline (spec/20_memory.md R84, spec/49_system.md R263): the draw decides which fires
first, and the other one fires next.
-/

namespace Sys2Proof.Machine

/-- No step comes before a timer that is due at `d`: there is nothing to come, or an input stamped then or later
(R263). -/
def State.NothingBefore (s : State) (d : Nat) : Prop :=
  s.env.inbox = [] ∧ s.env.waiting = [] ∨
    ∃ i rest, (s.hpBusy = true ∨ s.env.rst = true ∨ s.env.waiting = []) ∧ s.env.inbox = i :: rest ∧
      d ≤ max s.env.now i.time

theorem State.NothingBefore.reached {s : State} {d : Nat} (h : s.NothingBefore d) :
    reached s.pendingStamp d = true := by
  rcases h with ⟨hinbox, hwaiting⟩ | ⟨i, rest, hport, hinbox, hle⟩
  · rw [s.pendingStamp_none hinbox hwaiting]
    rfl
  · simpa [State.pendingStamp, s.pending_deliver i rest hport hinbox, Machine.reached] using hle

/-- When time has gone on to the deadline, with the port and the inputs as they were, still nothing comes before it. -/
theorem State.NothingBefore.at_deadline {s t : State} {d : Nat} (h : s.NothingBefore d) (hbusy : t.hpBusy = s.hpBusy)
    (henv : t.env = { s.env with now := d }) : t.NothingBefore d := by
  unfold State.NothingBefore
  rw [hbusy, henv]
  exact h.imp_right fun ⟨i, rest, hport, hinbox, _⟩ => ⟨i, rest, hport, hinbox, Nat.le_max_left d i.time⟩

/-- Of two timers due at one deadline either fires, by the draw (R84, R263). -/
theorem State.firing_tie (s : State) (d : Nat) (hd : reached s.pendingStamp d = true) (hg : s.enc.gt = some d)
    (hq : s.fr.qt = some d) : s.firing = some (.glitch, d) ∨ s.firing = some (.quiet, d) := by
  cases hdraw : Config.quietFirst d <;> simp [State.firing, Option.filter, hg, hq, hd, hdraw]

/-- The state at `d` after both expiries (R205, R236). -/
def State.bothExpired (s : State) (d : Nat) : State :=
  { s with enc := s.enc.expire, fr := { s.fr with ready := true, qt := none }, env := { s.env with now := d } }

/-- After the glitch timer's expiry at their common deadline the quiet timer's expiry is the next step. -/
theorem step_quiet_after_glitch (s : State) (d : Nat) (hq : s.fr.qt = some d) (h : s.NothingBefore d) :
    step { s with enc := s.enc.expire, env := { s.env with now := d } } = .next (s.bothExpired d) := by
  have due := (h.at_deadline (t := { s with enc := s.enc.expire, env := { s.env with now := d } }) rfl rfl).reached
  exact (step_first_timer _ d due (Nat.le_refl d)).2 hq fun _ hg => nomatch hg

/-- After the quiet timer's expiry at their common deadline the glitch timer's expiry is the next step. -/
theorem step_glitch_after_quiet (s : State) (d : Nat) (hg : s.enc.gt = some d) (h : s.NothingBefore d) :
    step { s with fr := { s.fr with ready := true, qt := none }, env := { s.env with now := d } } =
      .next (s.bothExpired d) := by
  have due := (h.at_deadline (t := { s with
    fr := { s.fr with ready := true, qt := none }, env := { s.env with now := d } }) rfl rfl).reached
  exact (step_first_timer _ d due (Nat.le_refl d)).1 hg fun _ hq => nomatch hq

end Sys2Proof.Machine

open Sys2Proof Sys2Proof.Machine

/-- Settles O11: whichever timer the draw lets fire first, the other one is then alone and due, and the two expiries
write different units. -/
theorem tiedTimersBothFireInEitherOrder : Obligations.TiedTimersBothFireInEitherOrder := by
  intro s d hg hq hnow h
  have before : s.NothingBefore d := h
  rcases s.firing_tie d before.reached hg hq with hf | hf
  · have first := (step_of_firing s .glitch d hf hnow).trans (runEvent_glitch _)
    exact ⟨.inl first, s.bothExpired d, (core_run_two s _ first).trans (step_quiet_after_glitch s d hq before),
      s.enc.expire_unit, rfl, rfl, rfl⟩
  · have first := (step_of_firing s .quiet d hf hnow).trans (runEvent_quiet _)
    exact ⟨.inr first, s.bothExpired d, (core_run_two s _ first).trans (step_glitch_after_quiet s d hg before),
      s.enc.expire_unit, rfl, rfl, rfl⟩

end

section
/-!
PROOFS. The words of a bus transfer (spec/20_memory.md R72 to R74, spec/40_register_bridge.md R130 to R132): where a
read's answer leaves them, and where a write takes them from.
-/

namespace Sys2Proof.Machine

/-- A word whose two bytes lie inside the data is the wire word there (R74). -/
theorem wordAt_eq_wireWord (data : List Byte) (k : Nat) (h : 2 * k + 1 < data.length) :
    wordAt data k = some (wireWord data k) := by
  have hhi : 2 * k < data.length := by omega
  simp [wordAt, wireWord, wordOfBytes, hhi, h]

/-- Up to 9 registers a read keeps the words after the wrap portion (R131, R136). -/
theorem newRes_low (count : Nat) (data : List Byte) (a : Fin 16) (h1 : 1 ≤ count) (h9 : count ≤ 9) :
    (newRes count data)[a.val] = if a.val < count then wireWord data (6 + a.val) else 0 := by
  rw [newRes_get count data a.val a.isLt, readWords_low count h1 h9]
  by_cases ha : a.val < count
  · have hk : (a.val + 6) % 16 = 6 + a.val := by omega
    rw [hk, if_pos (by omega), if_pos ha]
  · rw [if_neg (by omega), if_neg ha]

/-- From 11 registers on a read keeps its words in order from register 0x0A up (R131, R136). -/
theorem newRes_high (count : Nat) (data : List Byte) (a : Fin 16) (h11 : 11 ≤ count) (h16 : count ≤ 16) :
    (newRes count data)[a.val] = if 10 ≤ a.val ∧ a.val < count then wireWord data (a.val - 10) else 0 := by
  rw [newRes_get count data a.val a.isLt, readWords_high count (by omega) h16]
  by_cases ha : 10 ≤ a.val ∧ a.val < count
  · have hk : (a.val + 6) % 16 = a.val - 10 := by omega
    rw [hk, if_pos (by omega), if_pos ha]
  · rw [if_neg (by omega), if_neg ha]

/-- Word `k` of a write of the image is register `WR_START + k` (R130, R132). -/
theorem writeData_wordAt (wimg : Vector Word 16) (ub : Nat) (a : Fin 16) (h2 : 2 ≤ a.val) (hub : a.val ≤ ub) :
    wordAt (writeData wimg ub) (a.val - 2) = some wimg[a.val] := by
  have hreg : Config.wrStart + (a.val - 2) = a.val := by simp only [Config.wrStart]; omega
  rw [writeData, bytesOfWords_wordAt _ _ (by simp; omega)]
  simp [hreg]

/-- `BR_WRITE` with a legal bound posts the transfer (R132). -/
theorem exec_brWrite (ub : BitVec 8) (s : State) (h2 : 2 ≤ ub.toNat) (h15 : ub.toNat ≤ 0x0F) :
    exec (.brWrite ub) s = .next (s.post (.write Config.busAddr (writeData s.br.wimg ub.toNat))) :=
  if_neg (by omega)

/-- The end of a read replaces `RES` whole (R131). -/
@[simp] theorem storeRead_res (count : Nat) (data : List Byte) (s : State) :
    (storeRead count data s).br.res = newRes count data := rfl

/-- The step in which the bus answers the outstanding read with as many bytes as it asked for (R131, R261). -/
theorem step_read_answer (s : State) (t : Nat) (rest : List Input) (dev count : Nat) (data : List Byte)
    (hbusy : s.hpBusy = true) (hx : s.xfer = some (.read dev count data.length))
    (hinbox : s.env.inbox = ⟨t, .busData s.env.posted data⟩ :: rest) (hdue : s.nothingDueBy (max s.env.now t)) :
    step s = .next (storeRead count data
      { s with xfer := none, env := { s.env with inbox := rest, now := max s.env.now t } }) := by
  rw [step_deliver s ⟨t, .busData s.env.posted data⟩ rest (.inl hbusy) hinbox hdue]
  refine congrArg Host.Outcome.next ?_
  rw [busData_read _ s.env.posted dev count data.length data, if_pos rfl]
  exact (State.answering_posted _).trans hx

end Sys2Proof.Machine

open Sys2Proof Sys2Proof.Machine

/-- Settles O29: the step stores the words of the answer, `W` being half the bytes. -/
theorem readAnswerFillsRes : Obligations.ReadAnswerFillsRes := by
  intro s t rest dev count n data hbusy hx hinbox hdue hlen hcount
  subst hlen
  have hwords : readWords count = data.length / 2 := by
    rcases hcount with ⟨h1, h9, hn⟩ | ⟨h11, h16, hn⟩
    · rw [readWords_low count h1 h9]
      omega
    · rw [readWords_high count (by omega) h16]
      omega
  refine ⟨_, step_read_answer s t rest dev count data hbusy hx hinbox hdue, fun a => ?res, rfl, rfl, rfl, rfl, rfl, rfl,
    by rw [← hwords]; rfl⟩
  case res =>
    simp only [storeRead_res, Fin.getElem_fin]
    rcases hcount with ⟨h1, h9, hn⟩ | ⟨h11, h16, hn⟩
    · rw [newRes_low count data a h1 h9]
      refine ⟨fun ⟨_, ha⟩ => ?_, fun ⟨h11, _⟩ => by omega, fun ⟨hout, _⟩ => if_neg fun ha => hout ⟨h9, ha⟩⟩
      rw [if_pos ha]
      exact wordAt_eq_wireWord data _ (by omega)
    · rw [newRes_high count data a h11 h16]
      refine ⟨fun ⟨h9, _⟩ => by omega, fun ⟨_, ha⟩ => ?_, fun ⟨_, hout⟩ => if_neg fun ha => hout ⟨h11, ha⟩⟩
      rw [if_pos ha]
      exact wordAt_eq_wireWord data _ (by omega)

/-- Settles O31: the words posted are those of the image from `WR_START` up. -/
theorem brWritePostsTheImage : Obligations.BrWritePostsTheImage := by
  refine fun ub s => ⟨fun hub => ?range, fun h2 h15 => ?post⟩
  case range => exact ⟨_, if_pos hub, s.raise_errorOnly _⟩
  case post =>
    exact ⟨_, writeData s.br.wimg ub.toNat, exec_brWrite ub s h2 h15, ⟨rfl, rfl, rfl, rfl⟩, rfl, rfl, rfl,
      writeData_length _ _, fun a => writeData_wordAt _ _ a⟩

end

section
/-!
PROOFS. Observing and taking (spec/20_memory.md R80, R87): an observation changes no unit, a take reads a flag and
clears it in one step.
-/

namespace Sys2Proof.Machine

/-- `ENC_TAKE` with legal operands (R200). -/
theorem exec_encTake (enc : BitVec 8) (k : BitVec 2) (e : Fin 2) (s : State) (he : e.val = enc.toNat) (hk : k ≠ 3) :
    exec (.encTake enc k) s = .next ({ s with enc := s.enc.put e (s.enc.unit[e].taken k) }.respond .ok
      (flagWord (s.enc.unit[e].token k)) []) := by
  simp only [exec, execEncTake, (encIndex_some enc e).mpr he.symm]
  exact if_neg hk

/-- `ENC_TAKE` with an operand out of range (R107, R200). -/
theorem exec_encTake_range (enc : BitVec 8) (k : BitVec 2) (s : State) (h : 1 < enc.toNat ∨ k = 3) :
    exec (.encTake enc k) s = .next (s.raise .rangeError) := by
  rcases h with henc | rfl
  · simp [exec, execEncTake, (encIndex_none enc).mpr henc]
  · cases he : encIndex enc <;> simp [exec, execEncTake, he]

/-- The value that a legal `ENC_TAKE` answers (R200). -/
theorem Encoder.token_word (x : Encoder) (k : BitVec 2) (hk : k ≠ 3) : flagWord (x.token k) =
    BitVec.ofNat 16 (if k = 0 then x.fwd.toNat else if k = 1 then x.rev.toNat else x.push.toNat) := by
  rw [flagWord_eq, x.token_eq k hk, apply_ite Bool.toNat, apply_ite Bool.toNat]

end Sys2Proof.Machine

open Sys2Proof Sys2Proof.Machine

/-- Settles O22: the effect of an observation is a response alone. -/
theorem observationsHaveNoSideEffect : Obligations.ObservationsHaveNoSideEffect := by
  intro i s t h hobs
  cases exec_effect h with
  | rangeError _ => exact ⟨⟨rfl, rfl, rfl, rfl⟩, rfl, _, s.raise_env _⟩
  | answer _ value bytes => exact ⟨⟨rfl, rfl, rfl, rfl⟩, rfl, _, s.respond_env _ value bytes⟩
  | _ => simp at hobs

/-- Settles O44: the one write is the encoder with the token taken. -/
theorem encTakeReadsAndClearsOneToken : Obligations.EncTakeReadsAndClearsOneToken := by
  refine fun enc k s => ⟨fun hrange => ?range, fun e he hk => ?take⟩
  case range => exact ⟨_, exec_encTake_range enc k s hrange, s.raise_errorOnly _⟩
  case take =>
    refine ⟨_, exec_encTake enc k e s he hk, ?_⟩
    rw [Encoder.token_word _ k hk]
    have hself := s.enc.put_self e (s.enc.unit[e].taken k)
    refine ⟨⟨rfl, rfl, rfl⟩, ?st, ?fwd, ?rev, ?push, fun e' hne => s.enc.put_other e e' _ hne, rfl, rfl, rfl, rfl⟩
    case st => exact (congrArg Encoder.st hself).trans (Encoder.taken_st _ k)
    case fwd => exact (congrArg Encoder.fwd hself).trans (Encoder.taken_fwd _ k)
    case rev => exact (congrArg Encoder.rev hself).trans (Encoder.taken_rev _ k)
    case push => exact (congrArg Encoder.push hself).trans (Encoder.taken_push _ k)

/-- Settles O53: the one write clears `READY`. -/
theorem frTakereadyReadsAndClears : Obligations.FrTakereadyReadsAndClears := by
  intro s
  rw [← flagWord_eq]
  exact ⟨_, rfl, ⟨rfl, rfl, rfl⟩, rfl, rfl, rfl, rfl⟩

end

section
/-!
PROOFS. The encoding (spec/30_encoding.md R100 to R110): decoding and encoding are inverse to each other, and the
decoder is the opcode map.
-/

namespace Sys2Proof

/-! ### Fields -/

/-- A word is determined by its fields (R100). -/
theorem pack_eq_iff {w : CmdWord} {o a : BitVec 8} {d : Word} :
    pack o a d = w ↔ opcodeOf w = o ∧ argOf w = a ∧ dataOf w = d := by
  constructor
  · rintro rfl
    exact ⟨opcodeOf_pack o a d, argOf_pack o a d, dataOf_pack o a d⟩
  · rintro ⟨rfl, rfl, rfl⟩
    exact pack_fields w

@[simp] theorem opcodeOf_and (w v : CmdWord) : opcodeOf (w &&& v) = opcodeOf w &&& opcodeOf v :=
  BitVec.extractLsb'_and

@[simp] theorem argOf_and (w v : CmdWord) : argOf (w &&& v) = argOf w &&& argOf v := BitVec.extractLsb'_and

@[simp] theorem dataOf_and (w v : CmdWord) : dataOf (w &&& v) = dataOf w &&& dataOf v := BitVec.extractLsb'_and

/-- A mask acts on each field by itself (R103). -/
theorem and_pack_eq_iff {w : CmdWord} {mo ma o a : BitVec 8} {md d : Word} :
    w &&& pack mo ma md = pack o a d ↔ opcodeOf w &&& mo = o ∧ argOf w &&& ma = a ∧ dataOf w &&& md = d := by
  rw [eq_comm, pack_eq_iff]
  simp

section Halves

variable {m n : Nat}

/-- A bit string is determined by its high and its low part. -/
theorem append_eq_iff {d : BitVec (m + n)} {hi : BitVec m} {lo : BitVec n} :
    hi ++ lo = d ↔ d.extractLsb' n m = hi ∧ d.extractLsb' 0 n = lo := by
  constructor
  · rintro rfl
    exact ⟨BitVec.extractLsb'_append_eq_left, BitVec.extractLsb'_append_eq_right⟩
  · rintro ⟨rfl, rfl⟩
    rw [BitVec.extractLsb'_append_extractLsb'_eq_extractLsb' (Nat.zero_add n).symm, BitVec.extractLsb'_eq_self]

/-- A field is the operand in its low bits when the reserved bits above are zero (R103). -/
theorem zero_append_low_iff {d : BitVec (m + n)} : 0#m ++ d.extractLsb' 0 n = d ↔ d.extractLsb' n m = 0 :=
  append_eq_iff.trans (and_iff_left rfl)

/-- A mask that covers the high bits of a field tests them for zero (R103). -/
theorem and_high_mask_eq_zero {d : BitVec (m + n)} :
    d &&& (BitVec.allOnes m ++ 0#n) = 0 ↔ d.extractLsb' n m = 0 := by
  obtain ⟨hi, lo, rfl⟩ : ∃ (hi : BitVec m) (lo : BitVec n), hi ++ lo = d := ⟨_, _, append_eq_iff.mpr ⟨rfl, rfl⟩⟩
  rw [BitVec.and_append, BitVec.and_allOnes, BitVec.and_zero, append_eq_iff, BitVec.extractLsb'_append_eq_left]
  simpa using eq_comm

end Halves

/-! ### Decoding inverts encoding -/

/-- Every operand field is read back (R106, R107, R110). -/
theorem decode_encode (i : Instr) : decode (encode i) = some i := by
  cases i with
  | rdsRender arg k | encTake arg k =>
    obtain ⟨hhi, hlo⟩ := append_eq_iff.mp (rfl : 0#14 ++ k = 0#14 ++ k)
    simp [decode, encode, hhi, hlo]
  | evRxbyte b => exact Machine.decode_rxWord b
  | _ => simp [decode, encode]

/-- The decoder reads every bit of a word: as an operand, as a reserved-zero bit or as the opcode (R103). -/
theorem encode_of_decode {w : CmdWord} {i : Instr} (h : decode w = some i) : encode i = w := by
  unfold decode at h
  split at h
  -- no operand
  case h_1 hop | h_2 hop | h_9 hop | h_12 hop | h_13 hop | h_15 hop | h_21 hop | h_22 hop | h_24 hop | h_25 hop
      | h_27 hop =>
    obtain ⟨hzero, rfl⟩ := (whenZero_eq_some _ _ _).mp h
    simp only [Bool.and_eq_true, beq_iff_eq] at hzero
    exact pack_eq_iff.mpr ⟨hop, hzero⟩
  -- `ARG`
  case h_3 hop | h_4 hop | h_6 hop | h_7 hop | h_10 hop | h_14 hop | h_17 hop | h_18 hop | h_19 hop | h_20 hop
      | h_23 hop =>
    obtain ⟨hzero, rfl⟩ := (whenZero_eq_some _ _ _).mp h
    exact pack_eq_iff.mpr ⟨hop, rfl, beq_iff_eq.mp hzero⟩
  -- `ARG` and `DATA`
  case h_5 hop | h_8 hop =>
    cases h
    exact pack_eq_iff.mpr ⟨hop, rfl, rfl⟩
  -- `ARG` and the two low bits of `DATA`
  case h_11 hop | h_16 hop =>
    obtain ⟨hzero, rfl⟩ := (whenZero_eq_some _ _ _).mp h
    exact pack_eq_iff.mpr ⟨hop, rfl, (zero_append_low_iff (m := 14).mpr (beq_iff_eq.mp hzero)).symm⟩
  -- the low byte of `DATA`
  case h_26 hop =>
    obtain ⟨hzero, rfl⟩ := (whenZero_eq_some _ _ _).mp h
    simp only [Bool.and_eq_true, beq_iff_eq] at hzero
    exact pack_eq_iff.mpr ⟨hop, hzero.1, (zero_append_low_iff (m := 8).mpr hzero.2).symm⟩
  case h_28 => cases h

/-! ### The opcode map -/

theorem Instr.ctorIdx_lt (i : Instr) : i.ctorIdx < opcodeMap.length := by
  cases i <;> exact Nat.le_of_ble_eq_true rfl

/-- The row of an instruction: the map and `Instr` have one order (R106). -/
def Instr.row (i : Instr) : OpcodeRow := opcodeMap[i.ctorIdx]'i.ctorIdx_lt

theorem Instr.row_mem (i : Instr) : i.row ∈ opcodeMap := List.getElem_mem i.ctorIdx_lt

/-- An instruction has the mnemonic and the class of its row (R102, R106). -/
theorem Instr.row_names (i : Instr) : i.mnemonic = i.row.mnemonic ∧ i.isEvent = i.row.isEvent := by
  cases i <;> exact ⟨rfl, rfl⟩

section Rows

variable {w : CmdWord} {o : BitVec 8}

theorem and_full_byte (b : BitVec 8) : b &&& 0xFF = b := BitVec.and_allOnes

theorem and_full_word (d : Word) : d &&& 0xFFFF = d := BitVec.and_allOnes

/-- Every row tests the opcode, and the reserved bits of the operand fields for zero (R103, R105). -/
theorem and_mask_eq_iff {ma : BitVec 8} {md : Word} :
    w &&& pack 0xFF ma md = pack o 0 0 ↔ opcodeOf w = o ∧ argOf w &&& ma = 0 ∧ dataOf w &&& md = 0 := by
  rw [and_pack_eq_iff, and_full_byte]

theorem and_selector_mask (d : Word) : d &&& 0xFFFC = 0 ↔ d = 0#14 ++ d.extractLsb' 0 2 :=
  (and_high_mask_eq_zero (m := 14) (n := 2)).trans (zero_append_low_iff.symm.trans eq_comm)

theorem and_byte_mask (d : Word) : d &&& 0xFF00 = 0 ↔ d = 0#8 ++ d.extractLsb' 0 8 :=
  (and_high_mask_eq_zero (m := 8) (n := 8)).trans (zero_append_low_iff.symm.trans eq_comm)

/-! The words that a row selects, for each form of operands (R103, R107). -/

theorem noOperand_selects : w &&& 0xFFFFFFFF = pack o 0 0 ↔ pack o 0 0 = w := by
  have hmask : (0xFFFFFFFF : CmdWord) = pack 0xFF 0xFF 0xFFFF := rfl
  rw [hmask, and_mask_eq_iff, pack_eq_iff, and_full_byte, and_full_word]

theorem arg_selects : w &&& 0xFF00FFFF = pack o 0 0 ↔ pack o (argOf w) 0 = w := by
  have hmask : (0xFF00FFFF : CmdWord) = pack 0xFF 0 0xFFFF := rfl
  rw [hmask, and_mask_eq_iff, pack_eq_iff, and_full_word]
  simp

theorem argData_selects : w &&& 0xFF000000 = pack o 0 0 ↔ pack o (argOf w) (dataOf w) = w := by
  have hmask : (0xFF000000 : CmdWord) = pack 0xFF 0 0 := rfl
  rw [hmask, and_mask_eq_iff, pack_eq_iff]
  simp

theorem argSelector_selects :
    w &&& 0xFF00FFFC = pack o 0 0 ↔ pack o (argOf w) (0#14 ++ (dataOf w).extractLsb' 0 2) = w := by
  have hmask : (0xFF00FFFC : CmdWord) = pack 0xFF 0 0xFFFC := rfl
  rw [hmask, and_mask_eq_iff, pack_eq_iff, and_selector_mask]
  simp

theorem byte_selects : w &&& 0xFFFFFF00 = pack o 0 0 ↔ pack o 0 (0#8 ++ (dataOf w).extractLsb' 0 8) = w := by
  have hmask : (0xFFFFFF00 : CmdWord) = pack 0xFF 0xFF 0xFF00 := rfl
  rw [hmask, and_mask_eq_iff, pack_eq_iff, and_full_byte, and_byte_mask]

/-! The words with each form of operands are selected. -/

theorem pack_arg_selected (o a : BitVec 8) : pack o a 0 &&& 0xFF00FFFF = pack o 0 0 :=
  arg_selects.mpr (by simp)

theorem pack_argData_selected (o a : BitVec 8) (d : Word) : pack o a d &&& 0xFF000000 = pack o 0 0 :=
  argData_selects.mpr (by simp)

theorem pack_argSelector_selected (o a : BitVec 8) (k : BitVec 2) : pack o a (0#14 ++ k) &&& 0xFF00FFFC = pack o 0 0 :=
  argSelector_selects.mpr (by rw [argOf_pack, dataOf_pack, BitVec.extractLsb'_append_eq_right])

theorem pack_byte_selected (o : BitVec 8) (b : Byte) : pack o 0 (0#8 ++ b) &&& 0xFFFFFF00 = pack o 0 0 :=
  byte_selects.mpr (by rw [dataOf_pack, BitVec.extractLsb'_append_eq_right])

/-- The word of an instruction is selected by the instruction's row (R106). -/
theorem row_selects_encode (i : Instr) : encode i &&& i.row.mask = i.row.bits := by
  cases i with
  | brRead arg | brWrite arg | brGetres arg | brGetimg arg | rdsSettarget arg | rdsGetslot arg | encState arg | evPina arg
    | evPinb arg | evPush arg | frGetline arg => exact pack_arg_selected _ arg
  | brSetimg arg data | rdsLoadblk arg data => exact pack_argData_selected _ arg data
  | rdsRender arg k | encTake arg k => exact pack_argSelector_selected _ arg k
  | evRxbyte b => exact pack_byte_selected _ b
  | _ => rfl

/-- A word that a row selects is the word of an instruction of that row (R106). -/
theorem exists_encode_of_selected : ∀ r ∈ opcodeMap, w &&& r.mask = r.bits → ∃ i, encode i = w ∧ i.row = r := by
  simp only [opcodeMap, opcodeMapLow, opcodeMapHigh, List.forall_mem_append, List.forall_mem_cons, List.not_mem_nil,
    false_implies, implies_true, and_true]
  exact ⟨⟨fun h => ⟨.sysNop, noOperand_selects.mp h, rfl⟩,
    fun h => ⟨.sysReset, noOperand_selects.mp h, rfl⟩,
    fun h => ⟨.brRead _, arg_selects.mp h, rfl⟩,
    fun h => ⟨.brWrite _, arg_selects.mp h, rfl⟩,
    fun h => ⟨.brSetimg _ _, argData_selects.mp h, rfl⟩,
    fun h => ⟨.brGetres _, arg_selects.mp h, rfl⟩,
    fun h => ⟨.brGetimg _, arg_selects.mp h, rfl⟩,
    fun h => ⟨.rdsLoadblk _ _, argData_selects.mp h, rfl⟩,
    fun h => ⟨.rdsProcess, noOperand_selects.mp h, rfl⟩,
    fun h => ⟨.rdsSettarget _, arg_selects.mp h, rfl⟩,
    fun h => ⟨.rdsRender _ _, argSelector_selects.mp h, rfl⟩,
    fun h => ⟨.rdsGetps, noOperand_selects.mp h, rfl⟩,
    fun h => ⟨.rdsClear, noOperand_selects.mp h, rfl⟩,
    fun h => ⟨.rdsGetslot _, arg_selects.mp h, rfl⟩,
    fun h => ⟨.rdsGetstate, noOperand_selects.mp h, rfl⟩⟩,
    fun h => ⟨.encTake _ _, argSelector_selects.mp h, rfl⟩,
    fun h => ⟨.encState _, arg_selects.mp h, rfl⟩,
    fun h => ⟨.evPina _, arg_selects.mp h, rfl⟩,
    fun h => ⟨.evPinb _, arg_selects.mp h, rfl⟩,
    fun h => ⟨.evPush _, arg_selects.mp h, rfl⟩,
    fun h => ⟨.evGlitchExpire, noOperand_selects.mp h, rfl⟩,
    fun h => ⟨.frTakeready, noOperand_selects.mp h, rfl⟩,
    fun h => ⟨.frGetline _, arg_selects.mp h, rfl⟩,
    fun h => ⟨.frClear, noOperand_selects.mp h, rfl⟩,
    fun h => ⟨.frState, noOperand_selects.mp h, rfl⟩,
    fun h => ⟨.evRxbyte _, byte_selects.mp h, rfl⟩,
    fun h => ⟨.evQuietExpire, noOperand_selects.mp h, rfl⟩⟩

/-- The row of the instruction that a word decodes to selects the word (R103, R106). -/
theorem row_selects_of_decode {i : Instr} (h : decode w = some i) : w &&& i.row.mask = i.row.bits := by
  rw [← encode_of_decode h]
  exact row_selects_encode i

/-- A row that selects a word has the word's opcode byte, which no mask hides (R105). -/
theorem opcodeOf_row {r : OpcodeRow} (hr : r ∈ opcodeMap) (h : w &&& r.mask = r.bits) :
    opcodeOf r.bits = opcodeOf w := by
  have hmask : opcodeOf r.mask = 0xFF := opcodeMap_masks_top r hr
  rw [← h, opcodeOf_and, hmask, and_full_byte]

/-- The class of the rows that select a word is the class of the instruction it decodes to (R102, R105). -/
theorem isEvent_of_rows {i : Instr} {b : Bool} (hrows : ∀ r ∈ opcodeMap, w &&& r.mask = r.bits → r.isEvent = b)
    (h : decode w = some i) : i.isEvent = b :=
  i.row_names.2.trans (hrows i.row i.row_mem (row_selects_of_decode h))

end Rows

end Sys2Proof

open Sys2Proof

/-- Settles O1: by the constructor, field by field. -/
theorem decodeOfEncodeIsIdentity : Obligations.DecodeOfEncodeIsIdentity := decode_encode

/-- Settles O2: by the row the decoder takes. -/
theorem encodeOfDecodeIsIdentity : Obligations.EncodeOfDecodeIsIdentity := fun _ _ => encode_of_decode

/-- Settles O3: a word that a row selects is the word of an instruction of that row, which it decodes to; and a word
that decodes is selected by its instruction's row. -/
theorem decoderFollowsOpcodeMap : Obligations.DecoderFollowsOpcodeMap := by
  refine fun w => ⟨fun r hr hsel => ?selected, fun hnone => ?unselected⟩
  case selected =>
    obtain ⟨i, rfl, rfl⟩ := exists_encode_of_selected r hr hsel
    exact ⟨i, decode_encode i, i.row_names⟩
  case unselected =>
    cases hd : decode w with
    | none => rfl
    | some i => exact absurd (row_selects_of_decode hd) (hnone i.row i.row_mem)

/-- Settles O4: the two rows have the word's opcode byte, and no two rows have one. -/
theorem atMostOneRowMatchesAWord : Obligations.AtMostOneRowMatchesAWord := by
  intro w r hr r' hr' h h'
  exact List.inj_on_of_nodup_map opcodeMap_opcodes_distinct hr hr' ((opcodeOf_row hr h).trans (opcodeOf_row hr' h').symm)

/-- Settles O5: each word is that of its instruction. -/
theorem sampleWordsDecode : Obligations.SampleWordsDecode :=
  ⟨decode_encode .sysReset, decode_encode (.brRead 3), decode_encode (.brSetimg 2 0x4001),
    decode_encode (.rdsLoadblk 3 0x5269), decode_encode (.rdsRender 2 3), decode_encode (.encTake 1 2),
    decode_encode (.evPinb 1), decode_encode (.evRxbyte 0x41)⟩

end

section
/-!
PROOFS. Words without a meaning, refusals and responses (spec/30_encoding.md R104, R105, R109): a host word that selects
no command is answered, an event word that selects no event is refused, and no other step is refused.
-/

namespace Sys2Proof.Machine

/-! ### Words without a meaning -/

/-- A host word that no command row selects gets `ILLEGAL` and changes nothing else (R105, R281). -/
theorem runCommand_illegal {w : CmdWord} (s : State)
    (hrows : ∀ r ∈ opcodeMap, w &&& r.mask = r.bits → r.isEvent = true) :
    ∃ t, runCommand w s = .next t ∧ ErrorOnly s t .illegal := by
  rcases runCommand_cases s w with ⟨i, hd, hcommand, _⟩ | ⟨_, hrun⟩
  · exact Bool.noConfusion (hcommand.symm.trans (isEvent_of_rows hrows hd))
  · exact ⟨_, hrun, State.raise_errorOnly { s with hpBusy := true } .illegal⟩

/-- A word that no event row selects is refused outside reset (R105, R109). -/
theorem arrive_badEventWord {w : CmdWord} (s : State) (hr : s.env.rst = false)
    (hrows : ∀ r ∈ opcodeMap, w &&& r.mask = r.bits → r.isEvent = false) :
    arrive w s = .refused (.badEventWord w) := by
  rcases runEvent_cases s w with ⟨i, hd, hevent, _⟩ | ⟨_, hrun⟩
  · exact Bool.noConfusion (hevent.symm.trans (isEvent_of_rows hrows hd))
  · simpa [arrive, hr] using hrun

/-- An event whose encoder number is above 1 is refused (R109). -/
theorem exec_badEncoder (s : State) (enc : BitVec 8) (henc : 2 ≤ enc.toNat) :
    exec (.evPina enc) s = .refused (.badEncoder enc) ∧ exec (.evPinb enc) s = .refused (.badEncoder enc) ∧
      exec (.evPush enc) s = .refused (.badEncoder enc) := by
  simp [exec, execEvPina, execEvPinb, execEvPush, (encIndex_none enc).mpr henc]

/-- So is its word outside reset (R105, R109). -/
theorem arrive_badEncoder (s : State) (w : CmdWord) (enc : BitVec 8) (hr : s.env.rst = false) (henc : 2 ≤ enc.toNat)
    (hw : w = encode (.evPina enc) ∨ w = encode (.evPinb enc) ∨ w = encode (.evPush enc)) :
    arrive w s = .refused (.badEncoder enc) := by
  obtain ⟨hpina, hpinb, hpush⟩ := exec_badEncoder s enc henc
  rcases hw with rfl | rfl | rfl
  · exact (arrive_of_decode s _ _ hr (decode_encode _) rfl).trans hpina
  · exact (arrive_of_decode s _ _ hr (decode_encode _) rfl).trans hpinb
  · exact (arrive_of_decode s _ _ hr (decode_encode _) rfl).trans hpush

/-! ### What is never refused -/

/-- The outcome is a next state. -/
def Completes (o : Host.Outcome State Fault Refusal) : Prop := ∃ t, o = .next t

section

variable {o o' : Host.Outcome State Fault Refusal}

theorem Completes.next (t : State) : Completes (.next t) := ⟨t, rfl⟩

theorem Completes.ite {c : Prop} [Decidable c] (ho : Completes o) (ho' : Completes o') :
    Completes (if c then o else o') := by
  split
  · exact ho
  · exact ho'

theorem Completes.not_refused {r : Refusal} (ho : Completes o) : o ≠ .refused r := by
  obtain ⟨t, rfl⟩ := ho
  exact nofun

end

/-- A well-formed encoder number names an encoder (R109). -/
theorem encIndex_of_wellFormed {enc : BitVec 8} (h : decide (enc.toNat ≤ 1) = true) : ∃ e, encIndex enc = some e := by
  have hle : enc.toNat ≤ 1 := of_decide_eq_true h
  exact ⟨⟨enc.toNat, by omega⟩, (encIndex_some enc _).mpr rfl⟩

/-- A well-formed instruction is not refused: every command completes, and so does an event of encoder 0 or 1
(R107, R109). -/
theorem exec_completes {i : Instr} (s : State) (h : i.wellFormed = true) : Completes (exec i s) := by
  cases i with
  | brRead count => exact .ite (.next _) (.ite (.next _) (.next _))
  | brWrite | brSetimg | brGetres | brGetimg | rdsLoadblk | rdsSettarget | rdsRender | rdsGetslot | frGetline =>
    exact .ite (.next _) (.next _)
  | encTake enc k =>
    cases he : encIndex enc with
    | none => exact ⟨_, exec_encTake_range enc k s (.inl ((encIndex_none enc).mp he))⟩
    | some e =>
      simp only [exec, execEncTake, he]
      exact .ite (.next _) (.next _)
  | encState enc =>
    cases he : encIndex enc with
    | none => exact ⟨_, exec_encState_range enc s ((encIndex_none enc).mp he)⟩
    | some e => exact ⟨_, exec_encState enc e s ((encIndex_some enc e).mp he).symm⟩
  | evPina enc | evPinb enc | evPush enc =>
    obtain ⟨e, he⟩ := encIndex_of_wellFormed h
    simp only [exec, execEvPina, execEvPinb, execEvPush, he]
    exact .next _
  | _ => exact .next _

/-- Every command is well formed (R107). -/
theorem wellFormed_of_command {i : Instr} (h : i.isEvent = false) : i.wellFormed = true := by
  cases i with
  | evPina | evPinb | evPush | evGlitchExpire | evRxbyte | evQuietExpire => cases h
  | _ => rfl

/-- No host word is refused (R105, R281). -/
theorem runCommand_completes (w : CmdWord) (s : State) : Completes (runCommand w s) := by
  rcases runCommand_cases s w with ⟨i, _, hi, hrun⟩ | ⟨_, hrun⟩
  · rw [hrun]
    exact exec_completes _ (wellFormed_of_command hi)
  · exact ⟨_, hrun⟩

/-- A word on the event channel is not refused when it decodes to a well-formed event (R109). -/
theorem arrive_completes {w : CmdWord} {i : Instr} (s : State) (hd : decode w = some i) (he : i.isEvent = true)
    (hwf : i.wellFormed = true) : Completes (arrive w s) := by
  cases hr : s.env.rst with
  | true => exact ⟨s, if_pos hr⟩
  | false =>
    rw [arrive_of_decode s w i hr hd he]
    exact exec_completes s hwf

/-- The dispatcher makes well-formed events of the block's own encoders (R109, R265). -/
theorem edgeWord_decodes {pin : Pin} {e : Fin 2} {rising : Bool} {w : CmdWord} (h : edgeWord pin e rising = some w) :
    ∃ i, decode w = some i ∧ i.isEvent = true ∧ i.wellFormed = true := by
  have hwf : ∀ e : Fin 2, decide ((BitVec.ofNat 8 e.val).toNat ≤ 1) = true := by decide
  cases rising with
  | false => cases h
  | true => cases pin <;> cases h <;> exact ⟨_, decode_encode _, rfl, hwf e⟩

/-- No input but a raw event word is refused (R109, R268). -/
theorem deliver_completes {x : Item} (s : State) (h : ∀ w, x ≠ .event w) : Completes (deliver x s) := by
  cases x with
  | host w => exact .ite (runCommand_completes w s) (.next _)
  | edge pin e rising =>
    cases hw : edgeWord pin e rising with
    | none =>
      simp only [deliver, hw]
      exact .next _
    | some w =>
      obtain ⟨i, hd, he, hwf⟩ := edgeWord_decodes hw
      simp only [deliver, hw]
      exact arrive_completes s hd he hwf
  | rx b => exact arrive_completes s (decode_rxWord b) rfl rfl
  | event w => exact absurd rfl (h w)
  | busData | busCount | resetOn | resetOff => exact .next _

/-- A refused word on the event channel is not the word of a well-formed event (R105, R109). -/
theorem invalid_of_arrive_refused {w : CmdWord} {s : State} {r : Refusal} (h : arrive w s = .refused r) :
    decodeEvent w = none ∨ ∃ i, decode w = some i ∧ i.wellFormed = false := by
  cases hd : decode w with
  | none => exact .inl (by simp [decodeEvent, hd])
  | some i =>
    cases he : i.isEvent with
    | false => exact .inl (by simp [decodeEvent, hd, he])
    | true =>
      cases hwf : i.wellFormed with
      | true => exact absurd h (arrive_completes s hd he hwf).not_refused
      | false => exact .inr ⟨i, rfl, hwf⟩

/-- Every step completes, but for the delivery of a raw event word (R109, R268). -/
theorem step_completes_or_event (s : State) :
    Completes (step s) ∨ ∃ t w rest u, s.env.inbox = ⟨t, .event w⟩ :: rest ∧ step s = arrive w u := by
  rcases step_cases s with ⟨-, -, -, -, hs⟩ | ⟨d, -, -, hs⟩ | ⟨d, -, -, hs⟩ | ⟨w, rest, -, -, -, -, hs⟩ |
    ⟨⟨t, x⟩, rest, -, hinbox, -, hs⟩
  · exact .inl ⟨s, hs⟩
  · rw [hs, runEvent_glitch]
    exact .inl (exec_completes _ rfl)
  · rw [hs, runEvent_quiet]
    exact .inl (exec_completes _ rfl)
  · rw [hs]
    exact .inl (runCommand_completes w _)
  · by_cases hx : ∃ w, x = .event w
    · obtain ⟨w, rfl⟩ := hx
      exact .inr ⟨t, w, rest, _, hinbox, hs⟩
    · rw [hs]
      exact .inl (deliver_completes _ fun w hw => hx ⟨w, hw⟩)

end Sys2Proof.Machine

open Sys2Proof Sys2Proof.Machine

/-- Settles O12: presented or waiting, the word is run on the free port. -/
theorem hostWordWithoutCommandIsIllegal : Obligations.HostWordWithoutCommandIsIllegal := by
  refine fun s w hb hr hrows => ⟨fun t rest hw hinbox hdue => ?presented, fun rest hw hdue => ?waiting⟩
  case presented =>
    rw [step_deliver s ⟨t, .host w⟩ rest (.inr (.inr hw)) hinbox hdue, deliver_host_free]
    · exact runCommand_illegal _ hrows
    · exact hb
    · exact hr
  case waiting =>
    rw [step_accept s w rest hb hr hw hdue]
    exact runCommand_illegal _ hrows

/-- Settles O13: the step delivers the word to the event channel. -/
theorem invalidEventWordIsRefused : Obligations.InvalidEventWordIsRefused := by
  intro s t w rest hport hr hinbox hdue
  rw [step_deliver s ⟨t, .event w⟩ rest (hport.imp_right .inr) hinbox hdue]
  exact ⟨fun hrows => arrive_badEventWord _ hr hrows, fun enc henc hw => arrive_badEncoder _ w enc hr henc hw⟩

/-- Settles O18: a step that does not complete delivers a raw event word, and a well-formed event completes. -/
theorem onlyRawEventWordsAreRefused : Obligations.OnlyRawEventWordsAreRefused := by
  intro s r h
  rcases step_completes_or_event s with hs | ⟨t, w, rest, u, hinbox, hs⟩
  · exact absurd h hs.not_refused
  · exact ⟨t, w, rest, hinbox, invalid_of_arrive_refused (hs.symm.trans h)⟩

/-- Settles O20: an effect is a response, a posted transfer, or a write of one unit in silence. -/
theorem oneResponsePerCommand : Obligations.OneResponsePerCommand := by
  intro i s t h
  have he := exec_effect h
  refine ⟨fun hi => ?command, fun hi => ?event⟩
  case command =>
    cases he with
    | brRead count x => exact .inr ⟨rfl, rfl, rfl, .inl ⟨count, rfl⟩⟩
    | brWrite ub x => exact .inr ⟨rfl, rfl, rfl, .inr ⟨ub, rfl⟩⟩
    | evPina | evPinb | evPush | evGlitchExpire | evRxbyte | evQuietExpire => cases hi
    | _ => exact .inl ⟨_, rfl, rfl⟩
  case event =>
    obtain ⟨hbusy, hx⟩ := he.event_port hi
    refine ⟨?_, hbusy, hx⟩
    cases he with
    | rangeError hcommand | answer hcommand => exact Bool.noConfusion (hi.symm.trans hcommand)
    | evPina | evPinb | evPush | evGlitchExpire | evRxbyte | evQuietExpire => rfl
    | _ => cases hi

end

section
/-!
PROOFS. The bridge commands and the ends of their transfers (spec/40_register_bridge.md R131 to R136,
spec/60_exceptions.md R283): what a command asks the bus for, which word it writes or reads, and what the bus's answer
ends.
-/

namespace Sys2Proof.Machine

/-! ### The commands -/

/-- `BR_READ 10` moves no word: it ends in the step that began it (R131). -/
theorem exec_brRead_ten (count : BitVec 8) (s : State) (h : count.toNat = 10) :
    exec (.brRead count) s = .next (storeRead 10 [] s) := by
  simp [exec, execBrRead, h, readWords]

/-- `BR_READ` of any other legal count posts the transfer of its words (R131). -/
theorem exec_brRead_posts (count : BitVec 8) (s : State) (h1 : 1 ≤ count.toNat) (h16 : count.toNat ≤ 16)
    (hne : count.toNat ≠ 10) :
    exec (.brRead count) s = .next (s.post (.read Config.busAddr count.toNat (2 * readWords count.toNat))) := by
  have hlegal : ¬ (count.toNat < 1 ∨ 16 < count.toNat) := by omega
  have hwords : readWords count.toNat ≠ 0 := by
    unfold readWords
    omega
  exact (if_neg hlegal).trans (if_neg hwords)

/-- A read of 10 registers leaves nothing in `RES` (R131, R136). -/
theorem newRes_ten (data : List Byte) (a : Fin 16) : (newRes 10 data)[a.val] = 0 := by
  rw [newRes_get 10 data a.val a.isLt]
  exact if_neg fun ⟨hmoved, _⟩ => absurd hmoved (Nat.not_lt_zero _)

/-- A posted transfer occupies the port and changes no unit (R33, R260). -/
theorem State.post_outstanding (s : State) (x : Transfer) :
    SameUnits s (s.post x) ∧ (s.post x).hpBusy = true ∧ (s.post x).xfer = some x ∧
      (s.post x).env = { s.env with posted := s.env.posted + 1 } :=
  ⟨⟨rfl, rfl, rfl, rfl⟩, rfl, rfl, rfl⟩

/-- `BR_SETIMG` with a legal address (R133). -/
theorem exec_brSetimg (addr : BitVec 8) (word : Word) (s : State) (h : addr.toNat ≤ 0x0F) :
    exec (.brSetimg addr word) s =
      .next ({ s with br := { s.br with wimg := wr s.br.wimg addr.toNat word } }.respond .ok 0 []) :=
  if_neg (by omega)

/-- The word that a legal address selects in `RES` or `WIMG` (R31, R32). -/
theorem rd_of_index (v : Vector Word 16) (a : Fin 16) {i : Nat} (ha : a.val = i) : rd 0 v i = v[a] := by
  subst ha
  exact rd_fin 0 v a

/-- `BR_GETRES` with a legal address (R134). -/
theorem exec_brGetres (addr : BitVec 8) (a : Fin 16) (s : State) (ha : a.val = addr.toNat) :
    exec (.brGetres addr) s = .next (s.respond .ok s.br.res[a] []) := by
  rw [← rd_of_index s.br.res a ha]
  exact if_neg (by omega)

/-- `BR_GETIMG` with a legal address (R135). -/
theorem exec_brGetimg (addr : BitVec 8) (a : Fin 16) (s : State) (ha : a.val = addr.toNat) :
    exec (.brGetimg addr) s = .next (s.respond .ok s.br.wimg[a] []) := by
  rw [← rd_of_index s.br.wimg a ha]
  exact if_neg (by omega)

/-! ### The bus's answers -/

/-- Taking an input leaves the outstanding transfer to the answer that carries its number (R261). -/
theorem State.answering_taken (s : State) (t : Nat) (rest : List Input) :
    ({ s with env := { s.env with inbox := rest, now := max s.env.now t } } : State).answering s.env.posted =
      s.xfer :=
  State.answering_posted _

/-- The state that has taken the oldest input, stamped `t`, and whose transfer is over (R261, R262). -/
def State.transferEnded (s : State) (t : Nat) (rest : List Input) : State :=
  { s with xfer := none, env := { s.env with inbox := rest, now := max s.env.now t } }

/-- A response in that state frees the port, changes no unit, and is all that the environment gains (R33, R85). -/
theorem State.transferEnded_respond (s : State) (t : Nat) (rest : List Input) (st : Status) (v : Word)
    (bs : List Byte) :
    let t' := (s.transferEnded t rest).respond st v bs
    SameUnits s t' ∧ t'.hpBusy = false ∧ t'.xfer = none ∧
      t'.env = { s.env with inbox := rest, now := max s.env.now t, out := s.env.out ++ [⟨st, v, bs⟩] } :=
  ⟨⟨rfl, rfl, rfl, rfl⟩, rfl, rfl, rfl⟩

section

variable (s : State) (t : Nat) (rest : List Input) (dev : Nat) (hbusy : s.hpBusy = true)
  (hdue : s.nothingDueBy (max s.env.now t))

include hbusy hdue

/-- The step in which the bus answers the outstanding read with another number of bytes (R131, R283). -/
theorem step_read_wrong_count (count n : Nat) (data : List Byte) (hx : s.xfer = some (.read dev count n))
    (hinbox : s.env.inbox = ⟨t, .busData s.env.posted data⟩ :: rest) (hlen : data.length ≠ n) :
    step s = .next ((s.transferEnded t rest).raise .busError) := by
  rw [step_deliver s ⟨t, .busData s.env.posted data⟩ rest (.inl hbusy) hinbox hdue]
  have outstanding := (s.answering_taken t rest).trans hx
  exact congrArg Host.Outcome.next ((busData_read _ _ dev count n data outstanding).trans (if_neg hlen))

/-- The step in which the bus answers the outstanding write (R132, R261, R283). -/
theorem step_write_answer (m : Nat) (data : List Byte) (hx : s.xfer = some (.write dev data))
    (hinbox : s.env.inbox = ⟨t, .busCount s.env.posted m⟩ :: rest) :
    step s = .next (
      if m = data.length then (s.transferEnded t rest).respond .ok (BitVec.ofNat 16 (data.length / 2)) []
      else (s.transferEnded t rest).raise .busError) := by
  rw [step_deliver s ⟨t, .busCount s.env.posted m⟩ rest (.inl hbusy) hinbox hdue]
  have outstanding := (s.answering_taken t rest).trans hx
  exact congrArg Host.Outcome.next (busCount_write _ _ dev m data outstanding)

end

end Sys2Proof.Machine

open Sys2Proof Sys2Proof.Machine

/-- Settles O28: the words moved are `count + 6` below the read start, and `count - 10` from it on. -/
theorem brReadPostsItsTransfer : Obligations.BrReadPostsItsTransfer := by
  refine fun count s => ⟨fun hrange => ?range, fun h10 => ?ten, fun h1 h9 => ?low, fun h11 h16 => ?high⟩
  case range => exact ⟨_, if_pos (by omega), s.raise_errorOnly _⟩
  case ten =>
    exact ⟨_, exec_brRead_ten count s h10, ⟨rfl, rfl, rfl⟩, newRes_ten [], rfl, rfl, rfl, rfl⟩
  case low =>
    rw [← readWords_low _ h1 h9]
    exact ⟨_, exec_brRead_posts count s h1 (by omega) (by omega), s.post_outstanding _⟩
  case high =>
    rw [← readWords_high _ (by omega) h16]
    exact ⟨_, exec_brRead_posts count s (by omega) h16 (by omega), s.post_outstanding _⟩

/-- Settles O30: either transfer ends in the error raised in the state that has taken the answer. -/
theorem wrongByteCountIsBusError : Obligations.WrongByteCountIsBusError := by
  intro s t x rest hbusy hinbox hdue hanswer
  have failed : step s = .next ((s.transferEnded t rest).raise .busError) := by
    rcases hanswer with ⟨dev, count, n, data, hx, rfl, hlen⟩ | ⟨dev, sent, m, hx, rfl, hm⟩
    · exact step_read_wrong_count s t rest dev hbusy hdue count n data hx hinbox hlen
    · exact (step_write_answer s t rest dev hbusy hdue m sent hx hinbox).trans (congrArg _ (if_neg hm))
  exact ⟨_, failed, s.transferEnded_respond t rest .busError 0 []⟩

/-- Settles O32: the words written are half the bytes sent. -/
theorem writeAnswerResponds : Obligations.WriteAnswerResponds := by
  intro s t rest dev n data hbusy hx hlen hinbox hdue
  have hwords : data.length / 2 = n := by omega
  have answered := step_write_answer s t rest dev hbusy hdue (2 * n) data hx hinbox
  rw [if_pos hlen.symm, hwords] at answered
  exact ⟨_, answered, s.transferEnded_respond t rest .ok _ []⟩

/-- Settles O33: the one write is the word at the address. -/
theorem brSetimgWritesOneWord : Obligations.BrSetimgWritesOneWord := by
  refine fun addr word s => ⟨fun hrange => ?range, fun hlegal => ?write⟩
  case range => exact ⟨_, if_pos hrange, s.raise_errorOnly _⟩
  case write =>
    exact ⟨_, exec_brSetimg addr word s hlegal, ⟨rfl, rfl, rfl⟩,
      fun a => wr_get s.br.wimg addr.toNat word a.val a.isLt, rfl, rfl, rfl, rfl⟩

/-- Settles O34: each command is one response, read from its own buffer. -/
theorem brGetCommandsReadOneWord : Obligations.BrGetCommandsReadOneWord := by
  refine fun addr s => ⟨fun hrange => ⟨?rangeRes, ?rangeImg⟩, fun a ha => ⟨?res, ?img⟩⟩
  case rangeRes => exact ⟨_, if_pos hrange, s.raise_errorOnly _⟩
  case rangeImg => exact ⟨_, if_pos hrange, s.raise_errorOnly _⟩
  case res => exact ⟨_, exec_brGetres addr a s ha, s.respond_answered _ _ _⟩
  case img => exact ⟨_, exec_brGetimg addr a s ha, s.respond_answered _ _ _⟩

end

section
/-!
PROOFS. The RDS group assembler (spec/41_rds_assembler.md R160 to R168): which way a group in the latch goes and what it
leaves there, how a message is rendered, and the commands that set up the unit.
-/

namespace Sys2Proof.Machine

/-! ### The way of a group -/

/-- The slot of an RT group is the low 4 bits of its Block B (R159, R164). -/
theorem blockSlot_toNat (b : Word) : (idxSlot (blockIdx b)).toNat = b.toNat % 16 := by
  rw [idxSlot_toNat, blockIdx_toNat]
  omega

/-- The value of a PS group tells whether Block C is the sentinel (R163). -/
theorem processWord_sentinel (c : Word) :
    processWord 2 false (sentinelMismatch c) 0 = if c = Config.psSentinel then 2 else 10 := by
  rw [processWord_ps]
  by_cases h : c = Config.psSentinel <;> simp [sentinelMismatch, h]

/-- The value of an RT group tells whether it completes a message, and its length (R63, R161). -/
theorem processWord_rt (complete : Bool) (n : BitVec 4) :
    processWord 3 complete false (if complete then n else 0) =
      if complete then BitVec.ofNat 16 (7 + 16 * n.toNat) else 3 := by
  cases complete with
  | false =>
    simp only [Bool.false_eq_true, if_false]
    rfl
  | true =>
    simp only [if_true]
    exact processWord_complete n

/-- `RDS_PROCESS` by the bits of Block B: the unit it leaves, and its value as a number (R161). -/
theorem Rds.process_eq (r : Rds) : r.process =
    if r.grp[1].getLsbD 10 then (r, (0 : Word))
    else if r.grp[1].toNat / 4096 = 0 then
      (r.psAssemble (blockIdx r.grp[1]) r.grp[3], if r.grp[2] = Config.psSentinel then 2 else 10)
    else if r.grp[1].toNat / 4096 = 2 then
      (r.rtAssemble (blockIdx r.grp[1]) r.grp[2] r.grp[3],
        if r.completes (blockIdx r.grp[1]) then BitVec.ofNat 16 (7 + 16 * (r.grp[1].toNat % 16)) else 3)
    else (r, 1) := by
  rcases r.process_cases with ⟨htp, h⟩ | ⟨htp, ht, h⟩ | ⟨htp, ht, h⟩ | ⟨htp, h0, h2, h⟩
  · simp only [h, htp, if_true]
    rfl
  · simp only [h, htp, ht, processWord_sentinel, if_true, Bool.false_eq_true, if_false]
  · simp only [h, htp, ht, processWord_rt, blockSlot_toNat, if_true, Bool.false_eq_true, if_false, OfNat.ofNat_ne_zero]
  · simp only [h, htp, h0, h2, Bool.false_eq_true, if_false]
    rfl

/-- An RT group in the latch is assembled (R161, R164). -/
theorem Rds.process_rt (r : Rds) (htp : r.grp[1].getLsbD 10 = false) (htype : r.grp[1].toNat / 4096 = 2) :
    r.process = (r.rtAssemble (blockIdx r.grp[1]) r.grp[2] r.grp[3],
      if r.completes (blockIdx r.grp[1]) then BitVec.ofNat 16 (7 + 16 * (r.grp[1].toNat % 16)) else 3) := by
  have hother : r.grp[1].toNat / 4096 ≠ 0 := by omega
  rw [Rds.process_eq, if_neg (Bool.eq_false_iff.mp htp), if_neg hother, if_pos htype]

/-- `RDS_PROCESS` ends in one response and changes its own unit only (R161). -/
theorem exec_rdsProcess_of {s : State} {r : Rds} {v : Word} (h : s.rds.process = (r, v)) :
    exec .rdsProcess s = .next ({ s with rds := r }.respond .ok v []) := by
  calc exec .rdsProcess s
    _ = .next ({ s with rds := s.rds.process.1 }.respond .ok s.rds.process.2 []) := rfl
    _ = _ := by rw [h]

/-! ### PS groups -/

/-- The PS buffer after a PS group (R75, R163). -/
theorem Rds.psAssemble_get (r : Rds) (b d : Word) (p : Fin 8) :
    (r.psAssemble (blockIdx b) d).ps[p].toNat =
      if p.val = 2 * (b.toNat % 4) then d.toNat / 256
      else if p.val = 2 * (b.toNat % 4) + 1 then d.toNat % 256 else r.ps[p].toNat := by
  have hpair : (blockIdx b).toNat % 4 = b.toNat % 4 := by
    rw [blockIdx_toNat]
    omega
  simp only [Rds.psAssemble, hpair, Fin.getElem_fin, wr_get]
  by_cases hhi : p.val = 2 * (b.toNat % 4)
  · simp [hhi, hiByte_toNat]
  · by_cases hlo : p.val = 2 * (b.toNat % 4) + 1
    · simp [hlo, loByte_toNat]
    · simp [hhi, hlo]

/-! ### RT groups -/

/-- The characters of an RT group as numbers (R73, R164). -/
def rtCharCode (c d : Word) (j : Fin 4) : Nat :=
  if j = 0 then c.toNat / 256 else if j = 1 then c.toNat % 256
  else if j = 2 then d.toNat / 256 else d.toNat % 256

theorem rtChars_get (c d : Word) (j : Fin 4) : (rtChars c d)[j].toNat = rtCharCode c d j := by
  match j with
  | 0 => exact hiByte_toNat c
  | 1 => exact loByte_toNat c
  | 2 => exact hiByte_toNat d
  | 3 => exact loByte_toNat d

/-- A slot holds the characters of a group when it holds their codes. -/
theorem eq_rtChars_iff (cs : Vector Byte 4) (c d : Word) :
    cs = rtChars c d ↔ ∀ j : Fin 4, cs[j].toNat = rtCharCode c d j := by
  refine ⟨fun h j => h ▸ rtChars_get c d j, fun h => Vector.ext fun j hj => ?_⟩
  exact BitVec.eq_of_toNat_eq ((h ⟨j, hj⟩).trans (rtChars_get c d ⟨j, hj⟩).symm)

/-- The quality of the slot voted for (R165). -/
theorem Rds.vote_rtq_self (r : Rds) (slot : Fin 16) (cs : Vector Byte 4) :
    (r.vote slot cs).rtq[slot.val].toNat =
      if r.rtq[slot.val] = 0 ∨ r.rtc[slot.val] ≠ cs then 1
      else if r.rtq[slot.val].toNat < r.target.toNat then r.rtq[slot.val].toNat + 1
      else r.rtq[slot.val].toNat := by
  have gain : ∀ q t : BitVec 2, q < t → (q + 1).toNat = q.toNat + 1 := by decide
  rcases r.vote_cases slot cs with ⟨hq, hc, hlt, h⟩ | ⟨hq, hc, hlt, h⟩ | ⟨hnew, h⟩
  · have hlt' : r.rtq[slot.val].toNat < r.target.toNat := hlt
    rw [if_neg (not_or.mpr ⟨hq, not_not.mpr hc⟩), if_pos hlt', h, ← gain _ _ hlt]
    simp only [Vector.getElem_set_self]
  · have hlt' : ¬ r.rtq[slot.val].toNat < r.target.toNat := hlt
    rw [if_neg (not_or.mpr ⟨hq, not_not.mpr hc⟩), if_neg hlt', h]
  · rw [if_pos hnew, h]
    simp only [Vector.getElem_set_self]
    rfl

/-- An RT group votes into the slot of its Block B; the parity is no part of the vote (R164, R165). -/
theorem Rds.rtAssemble_eq_vote (r : Rds) (b c d : Word) (slot : Fin 16) (hslot : slot.val = b.toNat % 16) :
    r.rtAssemble (blockIdx b) c d = Rds.vote { r with rtp := b.getLsbD 4 } slot (rtChars c d) := by
  have hparity : (if r.flips (blockIdx b) then idxParity (blockIdx b) else r.rtp) = b.getLsbD 4 := by
    rw [← idxParity_blockIdx]
    by_cases h : idxParity (blockIdx b) = r.rtp <;> simp [Rds.flips, h]
  have hindex : (idxSlot (blockIdx b)).toFin = slot := Fin.ext ((blockSlot_toNat b).trans hslot.symm)
  rw [Rds.rtAssemble, hparity, hindex]

/-- A group completes on a flip with every slot below its own at the target quality (R164, C1). -/
theorem Rds.completes_block_iff (r : Rds) (b : Word) : r.completes (blockIdx b) = true ↔
    b.getLsbD 4 ≠ r.rtp ∧ ∀ i : Fin 16, i.val < b.toNat % 16 → r.target.toNat ≤ r.rtq[i].toNat := by
  rw [Rds.completes_iff, idxParity_blockIdx, blockSlot_toNat]
  rfl

/-! ### Rendering -/

/-- Pieces of one length laid one after another have that length each. -/
theorem length_flatMap_range {α : Type} (f : Nat → List α) (k n : Nat) (hf : ∀ i, (f i).length = k) :
    ((List.range n).flatMap f).length = k * n := by
  simp [List.length_flatMap, hf, Nat.mul_comm]

/-- In pieces of length `k` laid one after another, position `k * i + j` is position `j` of piece `i`. -/
theorem getElem?_flatMap_range {α : Type} (f : Nat → List α) (k n : Nat) (hf : ∀ i, (f i).length = k) (i j : Nat)
    (hi : i < n) (hj : j < k) : ((List.range n).flatMap f)[k * i + j]? = (f i)[j]? := by
  induction n with
  | zero => exact absurd hi (Nat.not_lt_zero i)
  | succ n ih =>
    have hlen := length_flatMap_range f k n hf
    rw [List.range_succ, List.flatMap_append, List.flatMap_singleton]
    rcases Nat.lt_succ_iff_lt_or_eq.mp hi with hlt | rfl
    · have hin : k * i + j < k * n := by
        calc k * i + j < k * i + k := by omega
          _ = k * (i + 1) := (Nat.mul_succ k i).symm
          _ ≤ k * n := Nat.mul_le_mul_left k hlt
      rw [List.getElem?_append_left (hlen ▸ hin), ih hlt]
    · rw [List.getElem?_append_right (by omega), hlen, Nat.add_sub_cancel_left]

/-- A slot is rendered as 4 bytes (R166). -/
theorem Rds.renderSlot_length (r : Rds) (q : BitVec 2) (i : Nat) : (r.renderSlot q i).length = 4 := by
  unfold Rds.renderSlot
  split
  · exact Vector.length_toList
  · exact List.length_replicate

/-- A rendered slot is its characters, or spaces when its quality is too low (R166). -/
theorem Rds.renderSlot_get (r : Rds) (q : BitVec 2) (i : Fin 16) (j : Fin 4) :
    (r.renderSlot q i.val)[j.val]? = some (if q.toNat ≤ r.rtq[i].toNat then r.rtc[i][j] else 0x20) := by
  by_cases h : q.toNat ≤ r.rtq[i].toNat
  · have hle : q ≤ rd 0 r.rtq i.val := (rd_fin 0 r.rtq i).symm ▸ h
    rw [Rds.renderSlot, if_pos hle, if_pos h, rd_fin]
    simp
  · have hgt : ¬ q ≤ rd 0 r.rtq i.val := (rd_fin 0 r.rtq i).symm ▸ h
    rw [Rds.renderSlot, if_neg hgt, if_neg h, List.getElem?_replicate, if_pos j.isLt]

/-- `RDS_RENDER` of a legal length (R166). -/
theorem exec_rdsRender (len : BitVec 8) (q : BitVec 2) (s : State) (h : len.toNat ≤ 16) :
    exec (.rdsRender len q) s =
      .next (s.respond .ok (BitVec.ofNat 16 len.toNat) ((List.range len.toNat).flatMap (s.rds.renderSlot q))) := by
  rw [BitVec.ofNat_toNat]
  exact if_neg (by omega)

/-! ### The commands that set up the unit -/

/-- `RDS_LOADBLK` of a legal block (R160). -/
theorem exec_rdsLoadblk (blk : BitVec 8) (word : Word) (s : State) (h : blk.toNat ≤ 3) :
    exec (.rdsLoadblk blk word) s =
      .next ({ s with rds := { s.rds with grp := wr s.rds.grp blk.toNat word } }.respond .ok 0 []) :=
  if_neg (by omega)

/-- `RDS_SETTARGET` of a legal quality (R162). -/
theorem exec_rdsSettarget (tq : BitVec 8) (s : State) (h1 : 1 ≤ tq.toNat) (h3 : tq.toNat ≤ 3) :
    exec (.rdsSettarget tq) s =
      .next ({ s with rds := { s.rds with target := tq.setWidth 2 } }.respond .ok 0 []) :=
  if_neg (by omega)

end Sys2Proof.Machine

open Sys2Proof Sys2Proof.Machine

/-- Settles O36: both ways out leave the unit as it is. -/
theorem rdsProcessIgnoresOtherGroups : Obligations.RdsProcessIgnoresOtherGroups := by
  refine fun s => ⟨fun htp => ?tp, fun htp h0 h2 => ?other⟩
  case tp =>
    have hp : s.rds.process = (s.rds, 0) := by rw [Rds.process_eq, if_pos htp]
    exact ⟨_, exec_rdsProcess_of hp, s.respond_answered .ok 0 []⟩
  case other =>
    have hp : s.rds.process = (s.rds, 1) := by
      rw [Rds.process_eq, if_neg (Bool.eq_false_iff.mp htp), if_neg h0, if_neg h2]
    exact ⟨_, exec_rdsProcess_of hp, s.respond_answered .ok 1 []⟩

/-- Settles O37: the two characters are the two writes of the PS buffer. -/
theorem rdsProcessAssemblesPs : Obligations.RdsProcessAssemblesPs := by
  intro s b htp htype
  have hp := s.rds.process_eq
  rw [if_neg (Bool.eq_false_iff.mp htp), if_pos htype] at hp
  exact ⟨_, exec_rdsProcess_of hp, ⟨rfl, rfl, rfl⟩, s.rds.psAssemble_get b _, rfl, rfl, rfl, rfl⟩

/-- Settles O38: the slot's characters and quality are those of the vote. -/
theorem rdsProcessVotesRt : Obligations.RdsProcessVotesRt := by
  intro s slot b new htp htype hslot
  have hp := s.rds.process_rt htp htype
  rw [s.rds.rtAssemble_eq_vote b _ _ slot hslot] at hp
  have hquality := Rds.vote_rtq_self { s.rds with rtp := b.getLsbD 4 } slot (rtChars s.rds.grp[2] s.rds.grp[3])
  have hsame := eq_rtChars_iff s.rds.rtc[slot] s.rds.grp[2] s.rds.grp[3]
  refine ⟨_, exec_rdsProcess_of hp, (eq_rtChars_iff _ _ _).mp (Rds.vote_rtc_self ..), fun hempty => ?empty,
    fun hfull hmatch => ?same, fun hfull hdiffers => ?other,
    fun i hi => ⟨Rds.vote_rtc_other _ _ _ _ hi, Rds.vote_rtq_other _ _ _ _ hi⟩,
    Rds.vote_grp .., Rds.vote_ps .., Rds.vote_target .., rfl, rfl, rfl⟩
  case empty => exact hquality.trans (if_pos (.inl hempty))
  case same => exact hquality.trans (if_neg (not_or.mpr ⟨hfull, not_not.mpr (hsame.mpr hmatch)⟩))
  case other => exact hquality.trans (if_pos (.inr fun h => hdiffers (hsame.mp h)))

/-- Settles O39: the group completes by the qualities that the vote finds. -/
theorem rdsProcessCompletesOnFlip : Obligations.RdsProcessCompletesOnFlip := by
  intro s b n htp htype
  have hcompletes := s.rds.completes_block_iff b
  have hparity := (s.rds.rtAssemble_rtp (blockIdx b) s.rds.grp[2] s.rds.grp[3]).trans (idxParity_blockIdx b)
  refine ⟨_, exec_rdsProcess_of (s.rds.process_rt htp htype), hparity, fun h => ?complete, fun h => ?goesOn⟩
  case complete =>
    rw [if_pos (hcompletes.mpr h)]
    exact ⟨rfl, rfl, rfl⟩
  case goesOn =>
    rw [if_neg (mt hcompletes.mp h)]
    exact ⟨rfl, rfl, rfl⟩

/-- Settles O41: the response is the slots laid one after another, 4 bytes each. -/
theorem rdsRenderBlanksLowQuality : Obligations.RdsRenderBlanksLowQuality := by
  refine fun len q s => ⟨fun hrange => ?range, fun hlegal => ?render⟩
  case range => exact ⟨_, if_pos hrange, s.raise_errorOnly _⟩
  case render =>
    have hslots := s.rds.renderSlot_length q
    obtain ⟨same, answered⟩ := s.respond_answered .ok (BitVec.ofNat 16 len.toNat)
      ((List.range len.toNat).flatMap (s.rds.renderSlot q))
    exact ⟨_, _, exec_rdsRender len q s hlegal, same, answered, length_flatMap_range _ 4 _ hslots, fun i j hi =>
      (getElem?_flatMap_range _ 4 _ hslots i.val j.val hi j.isLt).trans (s.rds.renderSlot_get q i j)⟩

/-- Settles O35: the one write is the block named. -/
theorem rdsLoadblkWritesOneBlock : Obligations.RdsLoadblkWritesOneBlock := by
  refine fun blk word s => ⟨fun hrange => ?range, fun hlegal => ?write⟩
  case range => exact ⟨_, if_pos hrange, s.raise_errorOnly _⟩
  case write =>
    exact ⟨_, exec_rdsLoadblk blk word s hlegal, ⟨rfl, rfl, rfl⟩,
      fun b => wr_get s.rds.grp blk.toNat word b.val b.isLt, rfl, rfl, rfl, rfl⟩

/-- Settles O40: a legal quality fits the two bits of `TARGET`. -/
theorem rdsSettargetSetsTarget : Obligations.RdsSettargetSetsTarget := by
  refine fun tq s => ⟨fun hrange => ?range, fun h1 h3 => ?set⟩
  case range => exact ⟨_, if_pos (by omega), s.raise_errorOnly _⟩
  case set =>
    have hfits : (tq.setWidth 2).toNat = tq.toNat :=
      (BitVec.toNat_setWidth 2 tq).trans (Nat.mod_eq_of_lt (by omega))
    exact ⟨_, exec_rdsSettarget tq s h1 h3, ⟨rfl, rfl, rfl⟩, hfits, rfl, rfl, rfl, rfl⟩

/-- Settles O43: the unit after the command is the cleared one. -/
theorem rdsClearKeepsTargetAndLatch : Obligations.RdsClearKeepsTargetAndLatch := by
  intro s
  exact ⟨{ s with rds := s.rds.clear }.respond .ok 0 [], rfl, ⟨rfl, rfl, rfl⟩, fun p => by simp,
    fun i => ⟨by simp, fun j => by simp⟩, rfl, rfl, rfl, rfl, rfl, rfl⟩

end

section
/-!
PROOFS. The encoder debouncer (spec/42_encoder_debouncer.md R202 to R207): the transition table of one encoder, a turn
completed within the glitch timeout, and a turn that the timeout discards.
-/

namespace Sys2Proof.Machine

/-! ### The events of one encoder -/

/-- The event of pin A of either encoder (R202). -/
theorem exec_evPina (e : Fin 2) (s : State) :
    exec (.evPina (BitVec.ofNat 8 e.val)) s = .next { s with enc := s.enc.pinA s.env.now e } := by
  simp [exec, execEvPina]

/-- The event of pin B of either encoder (R203). -/
theorem exec_evPinb (e : Fin 2) (s : State) :
    exec (.evPinb (BitVec.ofNat 8 e.val)) s = .next { s with enc := s.enc.pinB s.env.now e } := by
  simp [exec, execEvPinb]

/-- The event of the push pin of either encoder (R204). -/
theorem exec_evPush (e : Fin 2) (s : State) :
    exec (.evPush (BitVec.ofNat 8 e.val)) s = .next { s with enc := s.enc.pushed e } := by
  simp [exec, execEvPush]

/-- A cell of the table (R206): `i` makes `y` of encoder `e` and `gt` of the glitch timer, and changes nothing else. -/
def Makes (s : State) (e : Fin 2) (i : Instr) (y : Encoder) (gt : Option Nat) : Prop :=
  ∃ t, exec i s = .next t ∧ t.enc.unit[e] = y ∧ (∀ e' : Fin 2, e' ≠ e → t.enc.unit[e'] = s.enc.unit[e']) ∧
    t.enc.gt = gt ∧ t = { s with enc := t.enc }

/-- An event that replaces encoder `e` and sets the timer fills that cell. -/
theorem Makes.of_put {s : State} {e : Fin 2} {i : Instr} {y : Encoder} {gt : Option Nat} {u : EncUnit}
    (hexec : exec i s = .next { s with enc := u }) (hu : u = { s.enc.put e y with gt := gt }) : Makes s e i y gt := by
  subst hu
  exact ⟨_, hexec, s.enc.put_self e y, fun e' hne => s.enc.put_other e e' y hne, rfl, rfl⟩

/-- The push pin has one cell for all states (R204). -/
theorem evPush_makes (s : State) (e : Fin 2) :
    Makes s e (.evPush (BitVec.ofNat 8 e.val)) { s.enc.unit[e] with push := true } s.enc.gt :=
  .of_put (exec_evPush e s) rfl

/-! ### The step that takes an edge -/

/-- The debouncer after a rising edge of a pin of encoder `e` at time `now` (R265). -/
def EncUnit.rises (u : EncUnit) (now : Nat) (e : Fin 2) : Pin → EncUnit
  | .a => u.pinA now e
  | .b => u.pinB now e
  | .push => u.pushed e

/-- A rising edge outside reset changes the debouncer and nothing else (R265). -/
theorem deliver_edge (pin : Pin) (e : Fin 2) (s : State) (hr : s.env.rst = false) :
    deliver (.edge pin e true) s = .next { s with enc := s.enc.rises s.env.now e pin } := by
  cases pin with
  | a => exact (deliver_edge_a s e hr).trans (exec_evPina e s)
  | b => exact (deliver_edge_b s e hr).trans (exec_evPinb e s)
  | push => exact (deliver_edge_push s e hr).trans (exec_evPush e s)

/-- The state that has taken the oldest input at its time `t`, the debouncer being `u` after it. -/
def State.edgeTaken (s : State) (t : Nat) (rest : List Input) (u : EncUnit) : State :=
  { s with enc := u, env := { s.env with inbox := rest, now := t } }

/-- The step that takes a rising edge not stamped in the past, the quiet timer disarmed and the glitch timer not due
(R262, R265). -/
theorem step_edge (s : State) (t : Nat) (pin : Pin) (e : Fin 2) (rest : List Input) (hr : s.env.rst = false)
    (hw : s.env.waiting = []) (hqt : s.fr.qt = none) (hgt : ∀ d, s.enc.gt = some d → t < d)
    (hinbox : s.env.inbox = ⟨t, .edge pin e true⟩ :: rest) (hnow : s.env.now ≤ t) :
    step s = .next (s.edgeTaken t rest (s.enc.rises t e pin)) := by
  have hstamp : max s.env.now t = t := Nat.max_eq_right hnow
  have hdue : s.nothingDueBy (max s.env.now t) :=
    hstamp.symm ▸ ⟨hgt, fun _ hd => nomatch hqt.symm.trans hd⟩
  rw [step_deliver s ⟨t, .edge pin e true⟩ rest (.inr (.inr hw)) hinbox hdue, hstamp]
  exact deliver_edge pin e _ hr

/-! ### Turns -/

/-- The debouncer with encoder `e` keyed as `st` at time `now`, and the glitch timer armed for it (R202, R203). -/
def EncUnit.keyed (u : EncUnit) (now : Nat) (e : Fin 2) (st : EncState) : EncUnit :=
  { u.put e { u.unit[e.val] with st := st } with gt := armed now Config.tGlitch }

theorem EncUnit.keyed_get (u : EncUnit) (now : Nat) (e e' : Fin 2) (st : EncState) :
    (u.keyed now e st).unit[e'.val] = if e' = e then { u.unit[e.val] with st := st } else u.unit[e'.val] :=
  u.put_get e e' _

/-- The first edge of a turn keys the encoder and arms the glitch timer (R202, R203). -/
theorem EncUnit.rises_idle (u : EncUnit) (now : Nat) (e : Fin 2) {pin : Pin} (hpin : pin ≠ .push)
    (hidle : u.unit[e.val].st = .idle) : ∃ st, u.rises now e pin = u.keyed now e st := by
  cases pin with
  | a => exact ⟨.aKeyed, u.pinA_idle now e hidle⟩
  | b => exact ⟨.bKeyed, u.pinB_idle now e hidle⟩
  | push => exact absurd rfl hpin

/-- Pin B after pin A ends the turn of an idle encoder with a forward token, and touches no other encoder (R203). -/
theorem EncUnit.keyed_pinB (u : EncUnit) (t1 t2 : Nat) (e e' : Fin 2) (hidle : u.unit[e.val].st = .idle) :
    ((u.keyed t1 e .aKeyed).pinB t2 e).unit[e'.val] =
      if e' = e then { u.unit[e.val] with fwd := true } else u.unit[e'.val] := by
  have hself : (u.keyed t1 e .aKeyed).unit[e.val] = { u.unit[e.val] with st := .aKeyed } := u.put_self e _
  rw [pinB_aKeyed _ t2 e (congrArg Encoder.st hself), put_get, hself]
  split
  case isTrue => rw [← hidle]
  case isFalse hne => exact u.put_other e e' _ hne

/-- The expiry undoes the keying of an encoder, and returns the other one to `Idle` too (R205). -/
theorem EncUnit.keyed_expire (u : EncUnit) (now : Nat) (e e' : Fin 2) (st : EncState) :
    (u.keyed now e st).expire.unit[e'.val] = { u.unit[e'.val] with st := .idle } := by
  rw [expire_unit, keyed_get]
  split
  case isTrue he => rw [he]
  case isFalse => rfl

/-- With no other timer and no step before its deadline the glitch timer expires next (R16, R263). -/
theorem step_glitch_alone (s : State) (d : Nat) (hg : s.enc.gt = some d) (hqt : s.fr.qt = none) (hnow : s.env.now ≤ d)
    (h : s.NothingBefore d) : step s = .next { s with enc := s.enc.expire, env := { s.env with now := d } } :=
  (step_first_timer s d h.reached hnow).1 hg fun _ hd => nomatch hqt.symm.trans hd

end Sys2Proof.Machine

open Sys2Proof Sys2Proof.Machine

/-- Settles O46: each cell of the table is one replaced encoder, by its state and its event. -/
theorem encoderTransitionTable : Obligations.EncoderTransitionTable := by
  rintro s e x enc armed makes rfl
  refine ⟨fun h => ⟨?idleA, ?idleB, evPush_makes s e⟩, fun h => ⟨?aKeyedA, ?aKeyedB, evPush_makes s e⟩,
    fun h => ⟨?bKeyedA, ?bKeyedB, evPush_makes s e⟩, ?expiry⟩
  case idleA => exact Makes.of_put (exec_evPina e s) (s.enc.pinA_idle _ e h)
  case idleB => exact Makes.of_put (exec_evPinb e s) (s.enc.pinB_idle _ e h)
  case aKeyedA => exact Makes.of_put (exec_evPina e s) (s.enc.pinA_aKeyed _ e h)
  case aKeyedB => exact Makes.of_put (exec_evPinb e s) (s.enc.pinB_aKeyed _ e h)
  case bKeyedA => exact Makes.of_put (exec_evPina e s) (s.enc.pinA_bKeyed _ e h)
  case bKeyedB => exact Makes.of_put (exec_evPinb e s) (s.enc.pinB_bKeyed _ e h)
  case expiry =>
    obtain ⟨t, hexec, hunit, -, hframe⟩ := glitchExpiryReturnsBothToIdle s
    exact ⟨t, hexec, hunit e, hunit, hframe⟩

/-- Settles O48: the first step keys the encoder and arms the timer past the second edge, which ends the turn. -/
theorem forwardTurnWithinTheTimeout : Obligations.ForwardTurnWithinTheTimeout := by
  intro s e t1 t2 rest hr hw hqt hgt hidle hinbox hnow hle hin
  have hkeyed : s.enc.rises t1 e .a = s.enc.keyed t1 e .aKeyed := s.enc.pinA_idle t1 e hidle
  have first := step_edge s t1 .a e _ hr hw hqt hgt hinbox hnow
  rw [hkeyed] at first
  have hahead : ∀ d, (s.enc.keyed t1 e .aKeyed).gt = some d → t2 < d := fun _ hd => Option.some.inj hd ▸ hin
  have second := step_edge (s.edgeTaken t1 (⟨t2, .edge .b e true⟩ :: rest) (s.enc.keyed t1 e .aKeyed)) t2 .b e rest
    hr hw hqt hahead rfl hle
  have turned := fun e' => s.enc.keyed_pinB t1 t2 e e' hidle
  exact ⟨_, (core_run_two s _ first).trans second, (turned e).trans (if_pos rfl),
    fun e' hne => (turned e').trans (if_neg hne), rfl⟩

/-- Settles O49: the first step arms the timer, whose expiry comes before whatever is left of the inputs. -/
theorem unfinishedTurnTimesOut : Obligations.UnfinishedTurnTimesOut := by
  intro s e pin t1 rest hpin hr hw hqt hgt hidle hinbox hnow hlate
  obtain ⟨st, hkeyed⟩ := s.enc.rises_idle t1 e hpin hidle
  have first := step_edge s t1 pin e rest hr hw hqt hgt hinbox hnow
  rw [hkeyed] at first
  have before : (s.edgeTaken t1 rest (s.enc.keyed t1 e st)).NothingBefore (t1 + Config.tGlitch) := by
    cases rest with
    | nil => exact .inl ⟨rfl, hw⟩
    | cons i rest' => exact .inr ⟨i, rest', .inr (.inr hw), rfl, le_max_of_le_right (hlate i rest' rfl)⟩
  have second := step_glitch_alone (s.edgeTaken t1 rest (s.enc.keyed t1 e st)) (t1 + Config.tGlitch) rfl hqt
    (Nat.le_add_right t1 Config.tGlitch) before
  exact ⟨_, (core_run_two s _ first).trans second, fun e' => s.enc.keyed_expire t1 e e' st, rfl, rfl, rfl⟩

end

section
/-!
PROOFS. The reply framer (spec/43_reply_framer.md R230 to R237): what a step can make of the framer, and so that every
step keeps its invariants; one received byte; a reply that ends in silence; the commands that read and clear the buffer.
-/

namespace Sys2Proof.Machine

/-! ### The framer after a step -/

/-- What a step makes of the framer `f`: it keeps it, resets it (R310), or runs an instruction where `f` stood. -/
inductive FramerFrom (f : Framer) (t : State) : Prop
  | kept (same : t.fr = f)
  | reset (zeroed : t.fr = .reset)
  | ran {i : Instr} {u : State} (same : u.fr = f) (effect : Effect u i t)

theorem exec_framerFrom (i : Instr) (s : State) : Leads (exec i s) (FramerFrom s.fr) :=
  fun _ ht => .ran rfl (exec_effect ht)

theorem runCommand_framerFrom (w : CmdWord) (s : State) : Leads (runCommand w s) (FramerFrom s.fr) := by
  rcases runCommand_cases s w with ⟨i, _, _, hrun⟩ | ⟨_, hrun⟩ <;> rw [hrun]
  · exact exec_framerFrom i _
  · exact .next (.kept rfl)

theorem runEvent_framerFrom (w : CmdWord) (s : State) : Leads (runEvent w s) (FramerFrom s.fr) := by
  rcases runEvent_cases s w with ⟨i, _, _, hrun⟩ | ⟨_, hrun⟩ <;> rw [hrun]
  · exact exec_framerFrom i s
  · exact .refused _

theorem arrive_framerFrom (w : CmdWord) (s : State) : Leads (arrive w s) (FramerFrom s.fr) :=
  .ite (fun _ => .next (.kept rfl)) fun _ => runEvent_framerFrom w s

/-- A bus answer leaves the framer as it is (R2). -/
theorem SettledByTransfer.fr {nr : Nat} {answer : State → State} (h : SettledByTransfer nr answer) (s : State) :
    (answer s).fr = s.fr := by
  obtain ⟨_, _, hfr, _⟩ := h.isolated (s := s) rfl rfl
  exact hfr

theorem deliver_framerFrom (x : Item) (s : State) : Leads (deliver x s) (FramerFrom s.fr) := by
  cases x with
  | host w => exact .ite (fun _ => runCommand_framerFrom w s) fun _ => .next (.kept rfl)
  | edge pin e rising =>
    cases hw : edgeWord pin e rising <;> simp only [deliver, hw]
    case some w => exact arrive_framerFrom w s
    case none => exact .next (.kept rfl)
  | rx b => exact arrive_framerFrom _ s
  | event w => exact arrive_framerFrom w s
  | busData nr data => exact .next (.kept ((busData_settled nr data).fr s))
  | busCount nr m => exact .next (.kept ((busCount_settled nr m).fr s))
  | resetOn => exact .next (.reset rfl)
  | resetOff => exact .next (.kept rfl)

/-- Whatever the step is, its framer comes from the one before it (R83, R263). -/
theorem step_framerFrom (s : State) : Leads (step s) (FramerFrom s.fr) := by
  rcases step_cases s with ⟨_, _, _, _, hs⟩ | ⟨d, _, _, hs⟩ | ⟨d, _, _, hs⟩ | ⟨w, rest, _, _, _, _, hs⟩ |
    ⟨i, rest, _, _, _, hs⟩ <;> rw [hs]
  · exact .next (.kept rfl)
  · exact runEvent_framerFrom _ (s.stamped d)
  · exact runEvent_framerFrom _ (s.stamped d)
  · exact runCommand_framerFrom w _
  · exact deliver_framerFrom i.item _

/-- None of the three breaks the invariants of R237. -/
theorem FramerFrom.inv {f : Framer} {t : State} (ht : FramerFrom f t) (h : FramerInv f) : FramerInv t.fr := by
  cases ht with
  | kept same => exact same ▸ h
  | reset zeroed => exact zeroed ▸ .of_empty rfl rfl rfl
  | ran same effect => exact effect.framer (same ▸ h)

/-! ### One received byte -/

section Byte

variable {f : Framer} {b : Byte}

/-- No byte is both dropped and accepted (R231). -/
theorem Framer.not_dropped (hl : f.curL.val < 10) (hcr : b ≠ 0x0D) (hnul : b ≠ 0x00) :
    ¬ (b = 0x0D ∨ b = 0x00 ∨ f.curL.val = 10) :=
  not_or.mpr ⟨hcr, not_or.mpr ⟨hnul, Nat.ne_of_lt hl⟩⟩

variable (now : Nat)

/-- CR, NUL and any byte of a full buffer (R231). -/
theorem Framer.rx_dropped (h : b = 0x0D ∨ b = 0x00 ∨ f.curL.val = 10) : f.rx now b = f := by
  rcases f.rx_cases now b with ⟨_, hf⟩ | ⟨hl, hcr, hnul, _⟩ | ⟨hl, _, hcr, hnul, _⟩
  · exact hf
  · exact absurd h (Framer.not_dropped hl hcr hnul)
  · exact absurd h (Framer.not_dropped hl hcr hnul)

variable (hl : f.curL.val < 10) (hcr : b ≠ 0x0D) (hnul : b ≠ 0x00)

include hcr hnul

/-- An accepted LF, or the last column of a line (R231). -/
theorem Framer.rx_closes (hend : b = 0x0A ∨ f.curC.val = 49) : f.rx now b = { f.store b hl with
    curL := ⟨f.curL.val + 1, by omega⟩, curC := 0, qt := armed now Config.tQuiet } := by
  rcases f.rx_cases now b with ⟨hdrop, _⟩ | ⟨_, _, _, _, hf⟩ | ⟨_, hcol, _, _, hlf, _⟩
  · exact absurd hdrop (Framer.not_dropped hl hcr hnul)
  · exact hf
  · exact absurd hend (not_or.mpr ⟨hlf, by omega⟩)

/-- An accepted byte inside its line (R231). -/
theorem Framer.rx_continues (hlf : b ≠ 0x0A) (hcol : f.curC.val ≠ 49) : f.rx now b = { f.store b hl with
    curC := ⟨f.curC.val + 1, by omega⟩, qt := none } := by
  rcases f.rx_cases now b with ⟨hdrop, _⟩ | ⟨_, _, _, hend, _⟩ | ⟨_, _, _, _, _, hf⟩
  · exact absurd hdrop (Framer.not_dropped hl hcr hnul)
  · exact absurd hend (not_or.mpr ⟨hlf, hcol⟩)
  · exact hf

/-- Whether or not it closes its line, an accepted byte is stored (R231). -/
theorem Framer.rx_stores : (f.rx now b).line = (f.store b hl).line ∧ (f.rx now b).len = (f.store b hl).len := by
  by_cases hend : b = 0x0A ∨ f.curC.val = 49
  · rw [Framer.rx_closes now hl hcr hnul hend]
    exact ⟨rfl, rfl⟩
  · obtain ⟨hlf, hcol⟩ := not_or.mp hend
    rw [Framer.rx_continues now hl hcr hnul hlf hcol]
    exact ⟨rfl, rfl⟩

end Byte

/-- The event of a byte writes the framer and nothing else (R231). -/
theorem exec_evRxbyte (b : Byte) (s : State) :
    exec (.evRxbyte b) s = .next { s with fr := s.fr.rx s.env.now b } := rfl

/-! ### Silence after a byte -/

/-- The state that has taken the byte `b` as its oldest input at time `t` (R265). -/
def State.byteTaken (s : State) (t : Nat) (rest : List Input) (b : Byte) : State :=
  { s with fr := s.fr.rx t b, env := { s.env with inbox := rest, now := t } }

/-- The step that takes a byte not stamped in the past, no timer being due (R262, R265). -/
theorem step_byte (s : State) (t : Nat) (b : Byte) (rest : List Input) (hr : s.env.rst = false)
    (hw : s.env.waiting = []) (hdue : s.nothingDueBy t) (hinbox : s.env.inbox = ⟨t, .rx b⟩ :: rest)
    (hnow : s.env.now ≤ t) : step s = .next (s.byteTaken t rest b) := by
  have hstamp : max s.env.now t = t := Nat.max_eq_right hnow
  have hrun := stepRunsDispatchedEvent s t (.rx b) rest (.evRxbyte b) hr (.inr hw) hinbox (hstamp.symm ▸ hdue)
    (.inr (.inr (.inr (.inl ⟨b, rfl, rfl⟩))))
  rw [hrun, hstamp]
  exact exec_evRxbyte b _

/-- With no other timer and no step before its deadline the quiet timer expires next (R16, R236, R263). -/
theorem step_quiet_alone (s : State) (d : Nat) (hqt : s.fr.qt = some d) (hgt : s.enc.gt = none) (hnow : s.env.now ≤ d)
    (h : s.NothingBefore d) :
    step s = .next { s with fr := { s.fr with ready := true, qt := none }, env := { s.env with now := d } } :=
  (step_first_timer s d h.reached hnow).2 hqt fun _ hd => nomatch hgt.symm.trans hd

/-! ### The commands on the buffer -/

/-- `FR_GETLINE` with an operand in range (R233). -/
theorem exec_frGetline (line : BitVec 8) (l : Fin 10) (s : State) (hl : l.val = line.toNat) :
    exec (.frGetline line) s =
      .next (s.respond .ok (BitVec.ofNat 16 s.fr.len[l].val) (s.fr.lineBytes l.val)) := by
  have hlegal : ¬ 9 < line.toNat := by omega
  calc exec (.frGetline line) s
    _ = .next (s.respond .ok (BitVec.ofNat 16 (rd 0 s.fr.len line.toNat).val) (s.fr.lineBytes line.toNat)) :=
      if_neg hlegal
    _ = _ := by simp [← hl]

/-- A line reports as many bytes as its length says, which is at most its columns (R54). -/
theorem Framer.lineBytes_length (f : Framer) (l : Fin 10) : (f.lineBytes l.val).length = f.len[l].val := by
  have hle : f.len[l].val ≤ 50 := Nat.le_of_lt_succ f.len[l].isLt
  simpa [Framer.lineBytes] using hle

/-- The bytes reported are those stored, in order (R233). -/
theorem Framer.lineBytes_get (f : Framer) (l : Fin 10) (c : Fin 50) (hc : c.val < f.len[l].val) :
    (f.lineBytes l.val)[c.val]? = some f.line[l][c] := by
  simpa [Framer.lineBytes, List.getElem?_take] using hc

end Sys2Proof.Machine

open Sys2Proof Sys2Proof.Machine

/-- Settles O57: the framer is kept, reset, or what an instruction makes of it. -/
theorem everyStepKeepsFramerInvariants : Obligations.EveryStepKeepsFramerInvariants :=
  fun s t h ht => (step_framerFrom s t ht).inv h

/-- Settles O50: a byte is dropped, or stored with the cursor at the next line's start or one column on. -/
theorem rxByteFramesOneByte : Obligations.RxByteFramesOneByte := by
  refine fun b s => ⟨fun hdrop => ?dropped, fun hcr hnul hl => ?accepted⟩
  case dropped => rw [exec_evRxbyte, Framer.rx_dropped _ hdrop]
  case accepted =>
    obtain ⟨hline, hlen⟩ := Framer.rx_stores s.env.now hl hcr hnul
    refine ⟨_, exec_evRxbyte b s, fun l c => ?line, fun l => ?len, fun hend => ?closes, fun hlf hcol => ?continues,
      s.fr.rx_ready s.env.now b, rfl⟩
    case line =>
      simp only [hline]
      exact s.fr.store_line b hl l c
    case len =>
      simp only [hlen]
      exact s.fr.store_len b hl l
    case closes =>
      rw [Framer.rx_closes s.env.now hl hcr hnul hend]
      exact ⟨rfl, rfl, rfl⟩
    case continues =>
      rw [Framer.rx_continues s.env.now hl hcr hnul hlf hcol]
      exact ⟨rfl, rfl, rfl⟩

/-- Settles O52: the first step closes the line and arms the timer, whose expiry comes before whatever is left of the
inputs. -/
theorem closedLineThenSilenceIsReady : Obligations.ClosedLineThenSilenceIsReady := by
  intro s t1 b rest hr hw hgt hqt hl hcr hnul hend hinbox hnow hlate
  have hdue : s.nothingDueBy t1 := ⟨fun _ hd => (nomatch hgt.symm.trans hd), hqt⟩
  have first := step_byte s t1 b rest hr hw hdue hinbox hnow
  have hclosed := Framer.rx_closes t1 hl hcr hnul hend
  have harmed : (s.fr.rx t1 b).qt = some (t1 + Config.tQuiet) := congrArg Framer.qt hclosed
  have before : (s.byteTaken t1 rest b).NothingBefore (t1 + Config.tQuiet) := by
    cases rest with
    | nil => exact .inl ⟨rfl, hw⟩
    | cons i rest' => exact .inr ⟨i, rest', .inr (.inr hw), rfl, le_max_of_le_right (hlate i rest' rfl)⟩
  have second := step_quiet_alone (s.byteTaken t1 rest b) (t1 + Config.tQuiet) harmed hgt
    (Nat.le_add_right t1 Config.tQuiet) before
  exact ⟨_, (core_run_two s _ first).trans second, rfl, rfl, congrArg (·.curL.val) hclosed,
    congrArg (·.curC.val) hclosed, rfl⟩

/-- Settles O54: the response is the stored length and that many bytes of the line. -/
theorem frGetlineReadsTheStoredBytes : Obligations.FrGetlineReadsTheStoredBytes := by
  refine fun line s => ⟨fun hline => ?range, fun l hl => ?report⟩
  case range => exact ⟨_, if_pos hline, s.raise_errorOnly _⟩
  case report =>
    obtain ⟨same, answered⟩ := s.respond_answered .ok (BitVec.ofNat 16 s.fr.len[l].val) (s.fr.lineBytes l.val)
    exact ⟨_, _, exec_frGetline line l s hl, same, answered, s.fr.lineBytes_length l, s.fr.lineBytes_get l⟩

/-- Settles O55: the framer after the command is the cleared one. -/
theorem frClearKeepsTimerAndFlag : Obligations.FrClearKeepsTimerAndFlag := by
  refine fun s => ⟨_, rfl, ⟨rfl, rfl, rfl⟩, fun l => ⟨?len, fun c => ?line⟩, rfl, rfl, rfl, rfl, rfl, rfl, rfl⟩
  case len => simp
  case line => simp

end

section
/-!
PROOFS. The system (spec/49_system.md R262, R265 to R267, spec/70_reset_and_hazards.md R310, R311): the inputs that do
nothing, time along the step order, and the two system commands.
-/

namespace Sys2Proof.Machine

/-! ### Inputs without effect -/

/-- A falling edge makes no event (R265). -/
theorem deliver_edge_falling (pin : Pin) (e : Fin 2) (s : State) : deliver (.edge pin e false) s = .next s := rfl

/-- Any word on the event channel is lost during reset (R311, log 21). -/
theorem arrive_in_reset (w : CmdWord) (s : State) (hr : s.env.rst = true) : arrive w s = .next s := if_pos hr

/-- A rising edge is lost during reset, whatever its pin (R311). -/
theorem deliver_edge_in_reset (pin : Pin) (e : Fin 2) (s : State) (hr : s.env.rst = true) :
    deliver (.edge pin e true) s = .next s := by
  cases pin <;> exact arrive_in_reset _ s hr

/-- Data for a transfer that is not the outstanding one is ignored, of whichever kind that is (R311). -/
theorem deliver_busData_late (s : State) (nr : Nat) (data : List Byte) (h : s.xfer = none ∨ nr ≠ s.env.posted) :
    deliver (.busData nr data) s = .next s :=
  congrArg _ (busData_ignored s nr data fun _ _ _ ha => nomatch (s.answering_none nr h).symm.trans ha)

/-- A byte count for a transfer that is not the outstanding one is ignored, of whichever kind that is (R311). -/
theorem deliver_busCount_late (s : State) (nr m : Nat) (h : s.xfer = none ∨ nr ≠ s.env.posted) :
    deliver (.busCount nr m) s = .next s :=
  congrArg _ (busCount_ignored s nr m fun _ _ ha => nomatch (s.answering_none nr h).symm.trans ha)

/-! ### Time -/

/-- The time stamp of the last step is `n` (R262). -/
def State.AtTime (n : Nat) (t : State) : Prop := t.env.now = n

theorem exec_atTime (i : Instr) (s : State) : Leads (exec i s) (State.AtTime s.env.now) := by
  intro t ht
  obtain ⟨hnow, _⟩ := (exec_effect ht).clock
  exact hnow

theorem runCommand_atTime (w : CmdWord) (s : State) : Leads (runCommand w s) (State.AtTime s.env.now) := by
  rcases runCommand_cases s w with ⟨i, _, _, hrun⟩ | ⟨_, hrun⟩ <;> rw [hrun]
  · exact exec_atTime i _
  · exact .next rfl

theorem runEvent_atTime (w : CmdWord) (s : State) : Leads (runEvent w s) (State.AtTime s.env.now) := by
  rcases runEvent_cases s w with ⟨i, _, _, hrun⟩ | ⟨_, hrun⟩ <;> rw [hrun]
  · exact exec_atTime i s
  · exact .refused _

theorem arrive_atTime (w : CmdWord) (s : State) : Leads (arrive w s) (State.AtTime s.env.now) :=
  .ite (fun _ => .next rfl) fun _ => runEvent_atTime w s

/-- A bus answer, ignored or not, takes no time (R262). -/
theorem SettledByTransfer.atTime {nr : Nat} {answer : State → State} (h : SettledByTransfer nr answer) (s : State) :
    (answer s).AtTime s.env.now := by
  rcases h (s.answering nr) with ignored | ⟨g, r, _, completed⟩
  · rw [ignored s rfl]
    rfl
  · rw [completed s rfl]
    rfl

/-- The input's stamp is all the time it takes (R262). -/
theorem deliver_atTime (x : Item) (s : State) : Leads (deliver x s) (State.AtTime s.env.now) := by
  cases x with
  | host w => exact .ite (fun _ => runCommand_atTime w s) fun _ => .next rfl
  | edge pin e rising =>
    cases hw : edgeWord pin e rising <;> simp only [deliver, hw]
    case some w => exact arrive_atTime w s
    case none => exact .next rfl
  | rx b => exact arrive_atTime _ s
  | event w => exact arrive_atTime w s
  | busData nr data => exact .next ((busData_settled nr data).atTime s)
  | busCount nr m => exact .next ((busCount_settled nr m).atTime s)
  | resetOn => exact .next rfl
  | resetOff => exact .next rfl

/-- A step is stamped with the time it begins at or a later one (R262, R263). -/
theorem step_stamp (s : State) : ∃ n, s.env.now ≤ n ∧ Leads (step s) (State.AtTime n) := by
  rcases step_cases s with ⟨_, _, _, _, hs⟩ | ⟨d, _, _, hs⟩ | ⟨d, _, _, hs⟩ | ⟨w, rest, _, _, _, _, hs⟩ |
    ⟨i, rest, _, _, _, hs⟩ <;> rw [hs]
  · exact ⟨s.env.now, le_rfl, .next rfl⟩
  · exact ⟨max s.env.now d, le_max_left .., runEvent_atTime _ (s.stamped d)⟩
  · exact ⟨max s.env.now d, le_max_left .., runEvent_atTime _ (s.stamped d)⟩
  · exact ⟨s.env.now, le_rfl, runCommand_atTime w _⟩
  · exact ⟨max s.env.now i.time, le_max_left .., deliver_atTime i.item _⟩

end Sys2Proof.Machine

open Sys2Proof Sys2Proof.Machine

/-- Settles O16: the step delivers the input, which makes no event, is lost in reset, or finds no transfer. -/
theorem inputsWithoutEffect : Obligations.InputsWithoutEffect := by
  intro s t x rest hport hinbox hdue hx
  rw [step_deliver s ⟨t, x⟩ rest hport hinbox hdue]
  rcases hx with ⟨p, e, rfl⟩ | ⟨hr, ⟨p, e, rfl⟩ | ⟨b, rfl⟩ | ⟨w, rfl⟩⟩ | ⟨nr, hlate, ⟨data, rfl⟩ | ⟨m, rfl⟩⟩
  · exact deliver_edge_falling p e _
  · exact deliver_edge_in_reset p e _ hr
  · exact arrive_in_reset (rxWord b) _ hr
  · exact arrive_in_reset w _ hr
  · exact deliver_busData_late _ nr data hlate
  · exact deliver_busCount_late _ nr m hlate

/-- Settles O17: the state after a step is at the step's stamp. -/
theorem timeNeverDecreases : Obligations.TimeNeverDecreases := by
  intro s t ht
  obtain ⟨n, hle, hstamp⟩ := step_stamp s
  exact hle.trans_eq (hstamp t ht).symm

/-- Settles O26: the command is one response. -/
theorem sysNopOnlyResponds : Obligations.SysNopOnlyResponds := fun s => ⟨_, rfl, s.respond_answered .ok 0 []⟩

/-- Settles O27: the block is the reset one, and each of its buffers holds one value throughout. -/
theorem sysResetRestoresEveryElement : Obligations.SysResetRestoresEveryElement := by
  refine fun s => ⟨s.resetBlock.respond .ok 0 [], rfl, ?bridge, ?grp, ?ps, ?slots, rfl, rfl, ?encoders, rfl, ?lines,
    rfl, rfl, rfl, rfl, rfl, rfl, rfl⟩
  case bridge => simp [Bridge.reset]
  case grp => simp [Rds.reset]
  case ps => simp [Rds.reset]
  case slots => simp [Rds.reset]
  case encoders => simp [EncUnit.reset, Encoder.reset]
  case lines => simp [Framer.reset]

end

section
/-!
PROOFS. Operands out of range (spec/30_encoding.md R107, spec/60_exceptions.md R282): each command tests its operands
before anything else, and its test is the complement of the legal range.
-/

namespace Sys2Proof.Machine

/-- Outside a range with two ends is below the one or above the other. -/
theorem out_of_range {lo n hi : Nat} (h : decide (lo ≤ n ∧ n ≤ hi) = false) : n < lo ∨ hi < n := by
  have hout := of_decide_eq_false h
  omega

/-- Outside a range with an upper end alone is above it. -/
theorem above_range {n hi : Nat} (h : decide (n ≤ hi) = false) : hi < n := not_le.mp (of_decide_eq_false h)

/-- The operands of `ENC_TAKE` that are out of range: no such encoder, or no such token (R107). -/
theorem encTake_out_of_range {enc : BitVec 8} {k : BitVec 2} (h : operandsLegal (.encTake enc k) = false) :
    1 < enc.toNat ∨ k = 3 := by
  have hout : ¬(enc.toNat ≤ 1 ∧ k.toNat ≤ 2) := of_decide_eq_false h
  by_cases hk : k = 3
  · exact .inr hk
  · have hlt : k.toNat ≠ 3 := fun h3 => hk (BitVec.eq_of_toNat_eq h3)
    exact .inl (by omega)

/-- A command with an operand out of range raises `RANGE_ERROR` and does nothing else (R107, R282). -/
theorem exec_operand_out_of_range (i : Instr) (s : State) (hcommand : i.isEvent = false)
    (h : operandsLegal i = false) : exec i s = .next (s.raise .rangeError) := by
  cases i with
  | brRead | brWrite | rdsSettarget => exact if_pos (out_of_range h)
  | brSetimg | brGetres | brGetimg | rdsLoadblk | rdsRender | rdsGetslot | frGetline => exact if_pos (above_range h)
  | encTake enc k => exact exec_encTake_range enc k s (encTake_out_of_range h)
  | encState enc => exact exec_encState_range enc s (above_range h)
  | evPina | evPinb | evPush => cases hcommand
  | _ => cases h

end Sys2Proof.Machine

open Sys2Proof Sys2Proof.Machine

/-- Settles O19: the command's outcome is the raised error. -/
theorem operandOutOfRangeGivesRangeError : Obligations.OperandOutOfRangeGivesRangeError :=
  fun i s hcommand h => ⟨_, exec_operand_out_of_range i s hcommand h, s.raise_errorOnly _⟩

end

section
/-!
PROOFS. Reset (spec/70_reset_and_hazards.md R310 to R312): the block a reset leaves, by itself and with the line held.
-/

namespace Sys2Proof.Machine

/-- Every unit of a reset block is the reset one (R310). -/
theorem State.resetBlock_sameUnits (s : State) : SameUnits State.reset s.resetBlock := ⟨rfl, rfl, rfl, rfl⟩

/-- A block that is reset already stays as it is (R310). -/
@[simp] theorem State.resetBlock_reset : State.reset.resetBlock = State.reset := rfl

/-- Asserting the power-on reset resets the block and, outside it, holds the line and nothing else (R311, R312). -/
theorem deliver_resetOn (s : State) :
    deliver .resetOn s = .next { s.resetBlock with env := { s.env with rst := true } } := rfl

end Sys2Proof.Machine

open Sys2Proof Sys2Proof.Machine

/-- Settles O15: the step delivers the input, and the block it leaves is a reset one under a held line. -/
theorem powerOnResetAbandonsWorkInFlight : Obligations.PowerOnResetAbandonsWorkInFlight := by
  intro s t rest hport hinbox hdue
  have hstep := (step_deliver s ⟨t, .resetOn⟩ rest hport hinbox hdue).trans (deliver_resetOn _)
  have hunits := s.resetBlock_sameUnits
  exact ⟨_, hstep, hunits, s.resetBlock_hpBusy, s.resetBlock_xfer, rfl⟩

/-- Settles O59: the reset state is its own block reset, and a reset block has the invariant whatever is outside it. -/
theorem resetHasTheInvariant : Obligations.ResetHasTheInvariant := by
  have hinv : State.reset.resetBlock.Inv := State.reset.resetBlock_inv
  rwa [State.resetBlock_reset] at hinv

end
